-- ==== Sys2Proof/Word.lean ====
section
/-! DEFINITION. The two bit-vector types of the block: a byte (spec R9) and a 32-bit word (spec R22, R24, R26). -/

namespace Sys2Proof

/-- A byte: an unsigned 8-bit value, 0 to 255 (R9). -/
abbrev Byte := BitVec 8

/-- A 32-bit word: `OPWORD`, `IN_LEN`, the error details and the signed telemetry registers (R22, R24, R26). -/
abbrev Word := BitVec 32

end Sys2Proof
end

