-- ==== Sys2Proof/Config.lean ====
section
/-! DEFINITION. What an implementation fixes (the OPEN parameters of spec R7) and the free values of the model. The
protocol constants, which the spec gives a value, stand in Sys2Proof/Machine/Protocol.lean. -/

namespace Sys2Proof

/-- The width of the battery-status field, `w_BSTATUS ∈ {1, 2}` (R78, C5, D12). -/
inductive BstatusWidth where
  | one
  | two
deriving DecidableEq, Repr

/-- The parameter `LAYOUT` (R78): the byte offset of each of the twelve payload fields of R79, in the source's table
order, and the width of battery status. -/
structure Layout where
  vtotal : Nat
  current : Nat
  vcellMax : Nat
  vcellMin : Nat
  soc : Nat
  tempMax : Nat
  tempMin : Nat
  relay : Nat
  din : Nat
  bstatus : Nat
  bstatusWidth : BstatusWidth
  fault : Nat
  power : Nat
deriving DecidableEq, Repr

/-- The parameters R7 leaves OPEN: "the model takes the value as an argument and the spec fixes none". -/
structure Params where
  /-- `LAYOUT` (R78, D11, D12). -/
  layout : Layout
  /-- `RAW_CAP`, the capacity of `IN` in bytes, at least 8 (R7, R23, D15). -/
  rawCap : Nat
  /-- `CMD_INFO`, the command code of "read comprehensive/overall info", if it is given a value (R7, R83, D17). -/
  cmdInfo : Option Byte
deriving DecidableEq, Repr

/-- FREE VALUE (log 5): the unspecified byte of `IN` at an index HOST has not written since reset (R240, I9: "any
value"). The first argument says which reset the contents date from, the second is the index. It has no body, so no
proof can rest on a value of it. -/
opaque Config.unspecifiedByte : Nat → Nat → Byte

end Sys2Proof
end

