-- ==== Sys2Proof/Machine/Protocol.lean ====
section
/-! DEFINITION. The protocol constants of spec R7, each a named definition with the value the spec adopts ("every
protocol constant is a named parameter", log 4), the sizes that follow from a `LAYOUT` (R78, R80), and the spec's reference
values for the OPEN parameters (R79, R7, log 3). -/

namespace Sys2Proof

/-- `REQ_START`, request start marker, first and second byte (R7). -/
def REQ_START_0 : Byte := 0x5A#8
def REQ_START_1 : Byte := 0xA5#8

/-- `RSP_START`, response start marker, first and second byte (R7). -/
def RSP_START_0 : Byte := 0xAA#8
def RSP_START_1 : Byte := 0x55#8

/-- `END_MARK`, the end marker of both frames (R7). -/
def END_MARK : Byte := 0x68#8

/-- `FRAME_MIN`, the minimum response frame size in bytes (R7). -/
def FRAME_MIN : Nat := 8

/-- `LEN_ADJ`, the difference between frame size and length field (R7, R144, C1). -/
def LEN_ADJ : Nat := 4

/-- `REQ_LEN`, the request's 16-bit length field (R7, R121, C1). -/
def REQ_LEN : BitVec 16 := 0x0004#16

/-- `DEV_OFS`, offset of the device byte in both frames (R7). -/
def DEV_OFS : Nat := 4

/-- `CMD_OFS`, offset of the command byte in both frames (R7, R146). -/
def CMD_OFS : Nat := 5

/-- `PAYLOAD_OFS`, offset of the first payload byte of a response (R7). -/
def PAYLOAD_OFS : Nat := 6

/-- What a response frame holds beside its payload: six bytes before it, checksum and end marker after it (R76, R147:
"`plen = n − 8`"). -/
def FRAME_OVERHEAD : Nat := 8

/-- `CURRENT_BIAS`, subtracted from the raw current (R7, R174). -/
def CURRENT_BIAS : Int := 16000

/-- `TEMP_BIAS` in °C, subtracted after scaling; ten times as many raw units (R7, R178). -/
def TEMP_BIAS : Int := 40

/-- The bytes of the battery-status field (R78). -/
def BstatusWidth.bytes : BstatusWidth → Nat
  | .one => 1
  | .two => 2

/-- Offset and width of the twelve fields, in the table order of R79. Every field is 2 bytes wide except relay status
and digital-input status (1 byte) and battery status (`w_BSTATUS`) (R78). -/
def Layout.fields (L : Layout) : List (Nat × Nat) :=
  [ (L.vtotal, 2), (L.current, 2), (L.vcellMax, 2), (L.vcellMin, 2), (L.soc, 2), (L.tempMax, 2), (L.tempMin, 2),
    (L.relay, 1), (L.din, 1), (L.bstatus, L.bstatusWidth.bytes), (L.fault, 2), (L.power, 2) ]

/-- R80: `PAYLOAD_MIN = max over f of (ofs_f + w_f)`. -/
def Layout.payloadMin (L : Layout) : Nat := (L.fields.map fun f => f.1 + f.2).foldr max 0

/-- `LAYOUT_REF` (R79): the fields packed in table order from payload offset 0, with `w_BSTATUS = 2`. -/
def LAYOUT_REF : Layout :=
  { vtotal := 0, current := 2, vcellMax := 4, vcellMin := 6, soc := 8, tempMax := 10, tempMin := 12,
    relay := 14, din := 15, bstatus := 16, bstatusWidth := .two, fault := 18, power := 20 }

/-- `RAW_CAP`'s reference value (R7, D15): the largest frame that can validate (R77). -/
def RAW_CAP_REF : Nat := 65539

/-- DESIGN CHOICE (log 3): the parameters of the reset state: the spec's reference values, and `CMD_INFO` left open. -/
def PARAMS_REF : Params := { layout := LAYOUT_REF, rawCap := RAW_CAP_REF, cmdInfo := none }

end Sys2Proof
end

