-- ==== Sys2Proof/Syntax.lean ====
section
/-! DEFINITION. The instructions: `Instr`, one constructor per row of spec/opcode_table.json, and the surface form an
assembler line has (spec R82, R83). -/

namespace Sys2Proof

/-- The seven operations of R71. Operands are unsigned bytes with no extension or scaling (R72). -/
inductive Instr where
  /-- `CKSUM` (R103). -/
  | cksum
  /-- `BUILD dev, cmd` (R120). -/
  | build (dev cmd : Byte)
  /-- `VALIDATE` (R149). -/
  | validate
  /-- `VALIDATE.C exp` (R150). -/
  | validateC (exp : Byte)
  /-- `DECODE` (R187). -/
  | decode
  /-- `VDECODE` (R188). -/
  | vdecode
  /-- `VDECODE.C exp` (R189). -/
  | vdecodeC (exp : Byte)
deriving DecidableEq, Repr

/-- The mnemonics of R82 and the pseudo-instructions of R83. -/
inductive Mnemonic where
  | cksum
  | build
  | validate
  | validateC
  | decode
  | vdecode
  | vdecodeC
  | buildInfo
  | validateInfo
  | readInfo
deriving DecidableEq, Repr

/-- One line of the assembly language (R82): a mnemonic and its operands as the numbers written, before any range
check ("An operand outside 0 to 255 is an assembly error"). -/
structure AsmLine where
  mnemonic : Mnemonic
  operands : List Nat
deriving DecidableEq, Repr

end Sys2Proof
end

