-- ==== Sys2Proof/WellFormed.lean ====
section
/-! DEFINITION. The checks on syntax and configuration. An `Instr` needs none: its operands are bytes by their type
(R72). What can be ill-formed is an operation word (R71, R73), an assembly line (R82), a `LAYOUT` (R78) and the
parameters (R7). -/

namespace Sys2Proof

/-- One row of the opcode map of R71: the bits a legal word must have, and which bits those are. -/
structure OpRow where
  mask : Word
  bits : Word
deriving DecidableEq, Repr

/-- R71's table, row by row: a field marked 0 must be zero, a field marked `dev`, `cmd` or `exp` may be any byte. -/
def opRows : List OpRow :=
  [ ⟨0xFFFFFFFF#32, 0x00000001#32⟩,   -- CKSUM
    ⟨0xFF0000FF#32, 0x00000002#32⟩,   -- BUILD dev, cmd
    ⟨0xFFFFFFFF#32, 0x00000003#32⟩,   -- VALIDATE
    ⟨0xFFFF00FF#32, 0x00000004#32⟩,   -- VALIDATE.C exp
    ⟨0xFFFFFFFF#32, 0x00000005#32⟩,   -- DECODE
    ⟨0xFFFFFFFF#32, 0x00000006#32⟩,   -- VDECODE
    ⟨0xFFFF00FF#32, 0x00000007#32⟩ ]  -- VDECODE.C exp

/-- A word fits a row when it has the row's fixed bits. -/
def OpRow.fits (r : OpRow) (w : Word) : Bool := w &&& r.mask == r.bits

/-- The legal operation words: those of R71's table. "Every other `OPWORD` value is illegal" (R73). -/
def wordLegal (w : Word) : Bool := opRows.any fun r => r.fits w

/-- How many operands a mnemonic takes (R82, R83). -/
def Mnemonic.arity : Mnemonic → Nat
  | .cksum => 0
  | .build => 2
  | .validate => 0
  | .validateC => 1
  | .decode => 0
  | .vdecode => 0
  | .vdecodeC => 1
  | .buildInfo => 1
  | .validateInfo => 0
  | .readInfo => 0

/-- R82: a line has its mnemonic's operands, each from 0 to 255. -/
def AsmLine.wf (l : AsmLine) : Bool :=
  l.operands.length == l.mnemonic.arity && l.operands.all fun v => decide (v ≤ 255)

/-- Each field of a list starts at or after the end of the one before it. -/
def fieldsInOrder : List (Nat × Nat) → Bool
  | [] => true
  | [_] => true
  | (o, w) :: (o', w') :: rest => decide (o + w ≤ o') && fieldsInOrder ((o', w') :: rest)

/-- R78: the fields follow one another in table order without overlap, `ofs_{f+1} ≥ ofs_f + w_f`. -/
def Layout.wf (L : Layout) : Bool := fieldsInOrder L.fields

/-- The parameters a block can have: a well-formed `LAYOUT` (R78), `RAW_CAP ≥ 8` (R7), and a `PAYLOAD_MIN` that its
32-bit home `ERR_X` holds (DEDUCED from R10 and R217, log 9). -/
def Params.wf (p : Params) : Bool :=
  p.layout.wf && decide (8 ≤ p.rawCap) && decide (p.layout.payloadMin < 2 ^ 32)

end Sys2Proof
end

