-- ==== Sys2Proof/Decode.lean ====
section
/-! DEFINITION. The operation word: its fields (spec R70), the decoder `decode_op` (R74), total on every 32-bit value, and
the encoder (R71). -/

namespace Sys2Proof

/-- `OP`, operation select (R70). -/
def opField (w : Word) : BitVec 4 := w.extractLsb' 0 4
/-- `RSV0`, reserved, must be 0 (R70). -/
def rsv0Field (w : Word) : BitVec 4 := w.extractLsb' 4 4
/-- `B`, the command byte (R70, R72). -/
def bField (w : Word) : Byte := w.extractLsb' 8 8
/-- `A`, the device byte (R70, R72). -/
def aField (w : Word) : Byte := w.extractLsb' 16 8
/-- `RSV1`, reserved, must be 0 (R70). -/
def rsv1Field (w : Word) : Byte := w.extractLsb' 24 8

/-- Why a word is illegal: the three kinds of R73. -/
inductive IllegalWord where
  /-- `RSV0 ≠ 0` or `RSV1 ≠ 0`. -/
  | reservedNotZero
  /-- A non-zero `A` or `B` where R71 requires 0. -/
  | unusedOperandNotZero
  /-- `OP` in `{0x0, 0x8 .. 0xF}`. -/
  | opcodeUnassigned
deriving DecidableEq, Repr

/-- "Every 32-bit value selects exactly one outcome" (R74). -/
inductive Decoded where
  | instr (i : Instr)
  | illegal (why : IllegalWord)
deriving DecidableEq, Repr

/-- Is an operand field that R71 marks 0 set for this opcode? (R74, the second and third test.) -/
def unusedOperandSet (w : Word) : Bool :=
  match (opField w).toNat with
  | 1 | 3 | 5 | 6 => !(aField w == 0#8 && bField w == 0#8)
  | 4 | 7 => !(aField w == 0#8)
  | _ => false

/-- `decode_op` (R74), its tests in the order given there. -/
def decodeOp (w : Word) : Decoded :=
  if !(rsv1Field w == 0#8 && rsv0Field w == 0#4) then .illegal .reservedNotZero
  else if unusedOperandSet w then .illegal .unusedOperandNotZero
  else
    match (opField w).toNat with
    | 1 => .instr .cksum
    | 2 => .instr (.build (aField w) (bField w))
    | 3 => .instr .validate
    | 4 => .instr (.validateC (bField w))
    | 5 => .instr .decode
    | 6 => .instr .vdecode
    | 7 => .instr (.vdecodeC (bField w))
    | _ => .illegal .opcodeUnassigned

/-- The instruction a word selects, if it is legal. -/
def Decoded.instr? : Decoded → Option Instr
  | .instr i => some i
  | .illegal _ => none

/-- The host's view of the decoder: the word of an opcode-table row, bit 0 its least significant bit. `OPWORD` is one
32-bit register that HOST writes whole (R22), so no byte order comes in. -/
def decodeTableWord (nbits w : Nat) : Option Instr :=
  if w % 2 ^ nbits < 2 ^ 32 then (decodeOp (BitVec.ofNat 32 (w % 2 ^ nbits))).instr? else none

/-! The encoder. -/

/-- The `OP` value of an instruction (R71). -/
def Instr.opcode : Instr → BitVec 4
  | .cksum => 0x1#4
  | .build _ _ => 0x2#4
  | .validate => 0x3#4
  | .validateC _ => 0x4#4
  | .decode => 0x5#4
  | .vdecode => 0x6#4
  | .vdecodeC _ => 0x7#4

/-- The `A` byte of an instruction (R71). -/
def Instr.operandA : Instr → Byte
  | .build dev _ => dev
  | .cksum | .validate | .validateC _ | .decode | .vdecode | .vdecodeC _ => 0#8

/-- The `B` byte of an instruction (R71). -/
def Instr.operandB : Instr → Byte
  | .build _ cmd => cmd
  | .validateC exp => exp
  | .vdecodeC exp => exp
  | .cksum | .validate | .decode | .vdecode => 0#8

/-- The operation word of an instruction: `{RSV1, A, B, RSV0, OP}` with both reserved fields 0 (R70, R71). -/
def encode (i : Instr) : Word := 0#8 ++ i.operandA ++ i.operandB ++ 0#4 ++ i.opcode

end Sys2Proof
end

