-- ==== Sys2Proof/Machine/Memory.lean ====
section
/-! DEFINITION. The bytes of `IN` that HOST has written, as plain data in one canonical form (spec R23, R50; log 5). What
an unlisted index reads as has ONE definition, `unlistedByte`. -/

namespace Sys2Proof.Machine

/-- The written bytes of `IN`: (index, byte) pairs, indices strictly rising. -/
abbrev Memory := List Host.Cell

/-- The canonical form: strictly rising indices. An unlisted index holds no written byte (`Memory.lookup` answers
`none`), so no entry can equal what an unlisted index reads as, and equal contents are equal lists. -/
abbrev Memory.wf (m : Memory) : Prop := List.Pairwise (fun a b : Host.Cell => a.1 < b.1) m

/-- The byte HOST last wrote at index `i`, if it wrote one. -/
def Memory.lookup : Memory → Nat → Option Byte
  | [], _ => none
  | (a, b) :: rest, i => if a = i then some b else Memory.lookup rest i

/-- `IN[i] <- b`, keeping the canonical form. -/
def Memory.write (i : Nat) (b : Byte) : Memory → Memory
  | [] => [(i, b)]
  | (a, c) :: rest =>
    if i < a then (i, b) :: (a, c) :: rest
    else if a = i then (i, b) :: rest
    else (a, c) :: Memory.write i b rest

/-- What an index HOST has not written since reset reads as: the free value of that reset's draw (R240, I9; log 5). -/
def unlistedByte (draw i : Nat) : Byte := Config.unspecifiedByte draw i

end Sys2Proof.Machine
end

