-- ==== Sys2Proof/Machine/State.lean ====
section
/-! DEFINITION. State as plain data: the block's operand and result registers (spec R22 to R32), the buffer `IN` (R23), the
OPEN parameters (R7), and, as the model's own fields, what the agent HOST still does and has read (R38, R249). -/

namespace Sys2Proof.Machine

/-- The result registers of R26, each of the width R26 gives it. -/
inductive ResultReg where
  | status | errX | errY | ck
  | req (i : Fin 8)
  | vfDev | vfCmd | vfPofs | vfPlen
  | trVtotal | trCurrent | trVcellMax | trVcellMin | trSoc | trTempMax | trTempMin
  | trRelay | trDin | trBstatus | trFault | trPower
deriving DecidableEq, Repr

/-- What HOST can read: "a register name, or an index of `IN` or `REQ`" (R38). -/
inductive HostReg where
  | opword
  | inLen
  | inByte (i : Nat)
  | result (r : ResultReg)
deriving DecidableEq, Repr

/-- HOST's actions (R38), each one step, and the write to a result register that R26 says has no effect (log 8). -/
inductive HostAction where
  /-- `WriteIN(i, b)`. -/
  | writeIN (i : Nat) (b : Byte)
  /-- `WriteLEN(m)`. -/
  | writeLEN (m : Word)
  /-- `Issue(w)`. -/
  | issue (w : Word)
  /-- `Read(r)`. -/
  | read (r : HostReg)
  /-- `Reset`. -/
  | reset
  /-- A HOST write to a result register: "HOST can only read them; a HOST write to any of them has no effect" (R26). -/
  | writeResult (r : ResultReg) (v : Word)
deriving DecidableEq, Repr

/-- One `Read` HOST made, with the value it got back, zero-extended to 32 bits (R249, log 2). -/
structure ReadRecord where
  reg : HostReg
  value : Word
deriving DecidableEq, Repr

/-- The result state (R26). -/
structure Results where
  /-- `STATUS` (R27, R81). -/
  status : BitVec 4
  /-- `ERR_X`, `ERR_Y` (R28). -/
  errX : Word
  errY : Word
  /-- `CK` (R29). -/
  ck : Byte
  /-- `REQ[0]` to `REQ[7]` (R30, R50). -/
  req : Vector Byte 8
  /-- `VF_DEV`, `VF_CMD`, `VF_POFS`, `VF_PLEN` (R31). -/
  vfDev : Byte
  vfCmd : Byte
  vfPofs : Word
  vfPlen : Word
  /-- The `TR_` registers (R32): the unsigned 16-bit ones, the signed 32-bit ones (two's complement, R10) and the two
  bytes of flags. -/
  trVtotal : BitVec 16
  trCurrent : Word
  trVcellMax : BitVec 16
  trVcellMin : BitVec 16
  trSoc : BitVec 16
  trTempMax : Word
  trTempMin : Word
  trRelay : Byte
  trDin : Byte
  trBstatus : BitVec 16
  trFault : BitVec 16
  trPower : BitVec 16
deriving DecidableEq, Repr

/-- Every result register 0 except `STATUS`, which is as given. -/
def Results.zeroExcept (status : BitVec 4) : Results :=
  { status := status, errX := 0#32, errY := 0#32, ck := 0#8, req := Vector.replicate 8 0#8,
    vfDev := 0#8, vfCmd := 0#8, vfPofs := 0#32, vfPlen := 0#32,
    trVtotal := 0#16, trCurrent := 0#32, trVcellMax := 0#16, trVcellMin := 0#16, trSoc := 0#16,
    trTempMax := 0#32, trTempMin := 0#32, trRelay := 0#8, trDin := 0#8, trBstatus := 0#16, trFault := 0#16,
    trPower := 0#16 }

/-- The machine. -/
structure State where
  /-- `LAYOUT`, `RAW_CAP`, `CMD_INFO`: the OPEN parameters (R7). No step changes them. -/
  params : Params
  /-- `OPWORD` (R22). -/
  opword : Word
  /-- `IN` (R23): the bytes HOST has written since reset. -/
  inBuf : Memory
  /-- `IN_LEN` (R24). -/
  inLen : Word
  /-- The result state (R26). -/
  res : Results
  /-- The model's own: which draw the unspecified bytes of `IN` come from (R240, I9; log 5). -/
  inDraw : Nat
  /-- The model's own: the actions HOST still takes, next one first (R59, R249; log 1). -/
  script : List HostAction
  /-- The model's own: the Reads HOST has made, latest first (R249; log 2). -/
  reads : List ReadRecord
deriving DecidableEq, Repr

/-- How a step can stop. No operation of the block does: "None of them is a trap" (60_exceptions.md), so both reasons
belong to HOST actions that R38 does not give HOST. -/
inductive Fault where
  /-- Raised by `WriteLEN(m)` with `m > RAW_CAP`: "has no step in the model" (R24, R245, I10). Safe: the model stops
  (log 6). -/
  | lenAboveCapacity
  /-- Raised by `WriteIN(i, b)` and by a Read of `IN[i]` with `i ≥ RAW_CAP`: `IN` has no such byte (R23, R38). Safe: the
  model stops (log 7). -/
  | indexOutsideIn
deriving DecidableEq, Repr

/-- Why the model gives no meaning. -/
inductive Refusal where
  /-- An instruction whose meaning is not written yet, by its mnemonic. Raised by no arm of `exec` at present. Safe: the
  model stops. -/
  | notModelled (mnemonic : String)
deriving DecidableEq, Repr

/-- `STATUS` after reset: `0xF`, None (R240, R81). -/
def STATUS_NONE : BitVec 4 := 0xF#4

/-- The block right after reset (R240): `STATUS = 0xF`, every other result register 0, `OPWORD = 0`, `IN_LEN = 0`, the
bytes of `IN` unspecified. The parameters are the reference values (log 3); HOST has no action pending and has read nothing
(log 1, log 2). -/
def State.reset : State :=
  { params := PARAMS_REF, opword := 0#32, inBuf := [], inLen := 0#32, res := Results.zeroExcept STATUS_NONE,
    inDraw := 0, script := [], reads := [] }

end Sys2Proof.Machine
end

