-- ==== Sys2Proof/Machine/Flags.lean ====
section
/-! DEFINITION. The block's only condition code, `STATUS`, and the error details that go with it (spec R27, R28, R81, R211
to R219), and the flag view of the bitfield registers (R52, R180, R181). -/

namespace Sys2Proof.Machine

/-- The errors an operation can end in (R211 to R217, R219). -/
inductive ErrorKind where
  | tooShort
  | badStartMarker
  | badEndMarker
  | lengthMismatch
  | checksumMismatch
  | unexpectedCommand
  | payloadTooShort
  | illegalOp
deriving DecidableEq, Repr

/-- `STATUS` of a success (R81). -/
def STATUS_OK : BitVec 4 := 0x0#4

/-- The `STATUS` code of an error (R81). -/
def ErrorKind.code : ErrorKind → BitVec 4
  | .tooShort => 0x1#4
  | .badStartMarker => 0x2#4
  | .badEndMarker => 0x3#4
  | .lengthMismatch => 0x4#4
  | .checksumMismatch => 0x5#4
  | .unexpectedCommand => 0x6#4
  | .payloadTooShort => 0x7#4
  | .illegalOp => 0xE#4

/-- The codes R81 lets `STATUS` hold: all but the reserved `0x8`..`0xD`, which are "never written". -/
def statusLegal (c : BitVec 4) : Bool := decide (c.toNat ≤ 7) || c == 0xE#4 || c == 0xF#4

/-- An error with its two detail values (R28, R223: `raise E(x, y)`). -/
structure Report where
  kind : ErrorKind
  x : Nat
  y : Nat
deriving DecidableEq, Repr

/-- `Result<T, FrameError>`: `Ok(t)` or `Err(e)` (R13). -/
inductive Res (α : Type) where
  | ok (v : α)
  | err (r : Report)
deriving DecidableEq, Repr

/-- Flag `k` of a bitfield byte: bit `k`, bit 0 the least significant (R52, R180). -/
def flag (b : Byte) (k : Nat) : Bool := b.getLsbD k

/-- The eight flags of a bitfield byte, bit 0 first (R180, R181). -/
def flags (b : Byte) : List Bool := (List.range 8).map (flag b)

end Sys2Proof.Machine
end

