-- ==== Sys2Proof/Machine/Operands.lean ====
section
/-! DEFINITION. What an operation reads: bytes of `IN` (spec R12, R25), big-endian 16-bit fields (R51), and sub-ranges
(R11). A byte sequence is given by a reader, index to byte, and a length: every rule that reads it checks the length
first (R55), and whether it does is then a fact about the model. -/

namespace Sys2Proof.Machine

/-- `MemRead(i, 1)`: byte `i` of `IN` (R12). A byte HOST has not written since reset is unspecified (R240, log 5). -/
def inByte (s : State) (i : Nat) : Byte := (s.inBuf.lookup i).getD (unlistedByte s.inDraw i)

/-- `n = IN_LEN`, the length of the input (R24, R25). -/
def inputLen (s : State) : Nat := s.inLen.toNat

/-- `be16(s, o)`: the more significant byte is at the lower index (R11, R51). -/
def be16 (rd : Nat → Byte) (o : Nat) : Nat := (rd o).toNat * 256 + (rd (o + 1)).toNat

/-- `s[i..j)`, empty when `j ≤ i` (R11). -/
def slice (rd : Nat → Byte) (i j : Nat) : List Byte := (List.range (j - i)).map fun k => rd (i + k)

/-- The view of `IN` that starts at `ofs` (R63): byte `k` of it is `IN[ofs + k]`. -/
def viewFrom (rd : Nat → Byte) (ofs : Nat) : Nat → Byte := fun k => rd (ofs + k)

end Sys2Proof.Machine
end

