-- ==== Sys2Proof/Machine/Ops.lean ====
section
/-! DEFINITION. The named operations over registers and memory: single-field updates, `clear_results`, `raise` (the block's
whole exception entry, spec R223), the successful end of an operation, the writes of each group of result registers, reset
(R240) and reading a register (R38). There is no return from an error: "There is no vector, no handler and no
return-from-error operation" (R224). -/

namespace Sys2Proof.Machine

/-! Single-field updates. -/

def State.setOpword (s : State) (w : Word) : State := { s with opword := w }
def State.setInBuf (s : State) (m : Memory) : State := { s with inBuf := m }
def State.setInLen (s : State) (n : Word) : State := { s with inLen := n }
def State.setRes (s : State) (r : Results) : State := { s with res := r }
def State.setInDraw (s : State) (d : Nat) : State := { s with inDraw := d }
def State.setScript (s : State) (l : List HostAction) : State := { s with script := l }
def State.pushRead (s : State) (r : ReadRecord) : State := { s with reads := r :: s.reads }

/-! The result state. -/

/-- `clear_results()`: every result register other than `STATUS` to 0 (R223). -/
def clearResults (s : State) : State := s.setRes (Results.zeroExcept s.res.status)

/-- `raise E(x, y)`: `STATUS <- code(E)`, `ERR_X <- x`, `ERR_Y <- y`, every other result register left at the 0 that
`clear_results()` put there; nothing is saved and no control transfer takes place (R210, R223, R224). -/
def raise (r : Report) (s : State) : State :=
  let c := clearResults s
  c.setRes { c.res with status := r.kind.code, errX := BitVec.ofNat 32 r.x, errY := BitVec.ofNat 32 r.y }

/-- `STATUS <- OK` (R13). -/
def succeed (s : State) : State := s.setRes { s.res with status := STATUS_OK }

/-- `CK <- v` (R103). -/
def writeCk (v : Byte) (s : State) : State := s.setRes { s.res with ck := v }

/-- `MemWrite(i, 1, f[i])` for `i` in 0..7 (R120): the block's only memory write (R12). -/
def writeReq (f : Vector Byte 8) (s : State) : State := s.setRes { s.res with req := f }

/-- The result of a successful validation (R147). -/
structure ValidatedFrame where
  dev : Byte
  cmd : Byte
  pofs : Nat
  plen : Nat
deriving DecidableEq, Repr

/-- `VF_DEV <- r.dev; VF_CMD <- r.cmd; VF_POFS <- r.pofs; VF_PLEN <- r.plen` (R149). -/
def writeFrame (v : ValidatedFrame) (s : State) : State :=
  s.setRes { s.res with
    vfDev := v.dev, vfCmd := v.cmd, vfPofs := BitVec.ofNat 32 v.pofs, vfPlen := BitVec.ofNat 32 v.plen }

/-- The decoded record: exact integers, before they are stored (R10, R170, R186). -/
structure TelemetryRecord where
  vtotal : Nat
  current : Int
  vcellMax : Nat
  vcellMin : Nat
  soc : Nat
  tempMax : Int
  tempMin : Int
  relay : Byte
  din : Byte
  bstatus : Nat
  fault : Nat
  power : Nat
deriving DecidableEq, Repr

/-- `write_record(rec)` (R190): unsigned 16-bit values, 32-bit two's complement values (R10), bytes of flags. -/
def writeRecord (t : TelemetryRecord) (s : State) : State :=
  s.setRes { s.res with
    trVtotal := BitVec.ofNat 16 t.vtotal
    trCurrent := BitVec.ofInt 32 t.current
    trVcellMax := BitVec.ofNat 16 t.vcellMax
    trVcellMin := BitVec.ofNat 16 t.vcellMin
    trSoc := BitVec.ofNat 16 t.soc
    trTempMax := BitVec.ofInt 32 t.tempMax
    trTempMin := BitVec.ofInt 32 t.tempMin
    trRelay := t.relay
    trDin := t.din
    trBstatus := BitVec.ofNat 16 t.bstatus
    trFault := BitVec.ofNat 16 t.fault
    trPower := BitVec.ofNat 16 t.power }

/-- An operation that can fail: it clears the results, then either raises its error or writes its value and ends in
`STATUS = OK` (R13, R223). -/
def finish {α : Type} (r : Res α) (write : α → State → State) (s : State) : State :=
  match r with
  | .ok v => succeed (write v (clearResults s))
  | .err e => raise e (clearResults s)

/-! Reset and reading. -/

/-- `Reset` (R240): the result state and the operand registers take their reset values, and the bytes of `IN` become
unspecified again (a new draw, log 5). The parameters are fixed, and HOST's own actions and observations are not the
block's to reset (log 10). -/
def resetBlock (s : State) : State :=
  { s with
    opword := 0#32, inBuf := [], inLen := 0#32, res := Results.zeroExcept STATUS_NONE, inDraw := s.inDraw + 1 }

/-- The value of a result register, zero-extended to 32 bits (R26, R38). -/
def readResult (r : ResultReg) (v : Results) : Word :=
  match r with
  | .status => v.status.setWidth 32
  | .errX => v.errX
  | .errY => v.errY
  | .ck => v.ck.setWidth 32
  | .req i => v.req[i].setWidth 32
  | .vfDev => v.vfDev.setWidth 32
  | .vfCmd => v.vfCmd.setWidth 32
  | .vfPofs => v.vfPofs
  | .vfPlen => v.vfPlen
  | .trVtotal => v.trVtotal.setWidth 32
  | .trCurrent => v.trCurrent
  | .trVcellMax => v.trVcellMax.setWidth 32
  | .trVcellMin => v.trVcellMin.setWidth 32
  | .trSoc => v.trSoc.setWidth 32
  | .trTempMax => v.trTempMax
  | .trTempMin => v.trTempMin
  | .trRelay => v.trRelay.setWidth 32
  | .trDin => v.trDin.setWidth 32
  | .trBstatus => v.trBstatus.setWidth 32
  | .trFault => v.trFault.setWidth 32
  | .trPower => v.trPower.setWidth 32

/-- The value a HOST read returns (R22, R33, R38): the last value written. -/
def readReg (r : HostReg) (s : State) : Word :=
  match r with
  | .opword => s.opword
  | .inLen => s.inLen
  | .inByte i => (inByte s i).setWidth 32
  | .result r => readResult r s.res

end Sys2Proof.Machine
end

