-- ==== Sys2Proof/Machine/Checksum.lean ====
section
/-! DEFINITION. The checksum engine (spec 40_checksum_engine.md): `cksum8` and CKSUM. -/

namespace Sys2Proof.Machine

/-- `sum(s)`: the integer sum of the bytes (R11). -/
def byteSum (l : List Byte) : Nat := (l.map BitVec.toNat).sum

/-- `cksum8(s) = sum(s) mod 256`, an 8-bit value (R100). -/
def cksum8 (l : List Byte) : Byte := BitVec.ofNat 8 (byteSum l % 256)

/-- CKSUM (R103): the checksum of `IN[0..n)`, for any `n`. -/
def execCksum (s : State) : Host.Outcome State Fault Refusal :=
  let acc := cksum8 (slice (inByte s) 0 (inputLen s))
  .next (succeed (writeCk acc (clearResults s)))

end Sys2Proof.Machine
end

