-- ==== Sys2Proof/Machine/Builder.lean ====
section
/-! DEFINITION. The request builder (spec 41_request_builder.md): BUILD. -/

namespace Sys2Proof.Machine

/-- `f[0..6)`: the bytes of a request that its checksum covers (R75, R101, R120). -/
def requestHead (dev cmd : Byte) : List Byte :=
  [REQ_START_0, REQ_START_1, REQ_LEN.extractLsb' 8 8, REQ_LEN.extractLsb' 0 8, dev, cmd]

/-- The 8-byte RequestFrame (R75, R120). -/
def requestFrame (dev cmd : Byte) : Vector Byte 8 :=
  #v[REQ_START_0, REQ_START_1, REQ_LEN.extractLsb' 8 8, REQ_LEN.extractLsb' 0 8, dev, cmd,
    cksum8 (requestHead dev cmd), END_MARK]

/-- BUILD (R120): the request frame into `REQ`. It reads neither `IN` nor `IN_LEN`. -/
def execBuild (dev cmd : Byte) (s : State) : Host.Outcome State Fault Refusal :=
  .next (succeed (writeReq (requestFrame dev cmd) (clearResults s)))

end Sys2Proof.Machine
end

