-- ==== Sys2Proof/Machine/Validator.lean ====
section
/-! DEFINITION. The response validator (spec 42_response_validator.md): the six checks in order, VALIDATE and VALIDATE.C. -/

namespace Sys2Proof.Machine

/-- `validate(raw, chk, exp)` (R140) on `raw` of length `n` read through `rd`: `expected` is `some exp` when `chk` holds
and `none` when it does not. The checks run "in order, short-circuiting on first failure". -/
def validateFrame (rd : Nat → Byte) (n : Nat) (expected : Option Byte) : Res ValidatedFrame :=
  if n < FRAME_MIN then                                                   -- R141
    .err ⟨.tooShort, FRAME_MIN, n⟩
  else if rd 0 ≠ RSP_START_0 ∨ rd 1 ≠ RSP_START_1 then                    -- R142
    .err ⟨.badStartMarker, RSP_START_0.toNat * 256 + RSP_START_1.toNat, be16 rd 0⟩
  else if rd (n - 1) ≠ END_MARK then                                      -- R143
    .err ⟨.badEndMarker, END_MARK.toNat, (rd (n - 1)).toNat⟩
  else if be16 rd 2 ≠ n - LEN_ADJ then                                    -- R144
    .err ⟨.lengthMismatch, be16 rd 2, n - LEN_ADJ⟩
  else if rd (n - 2) ≠ cksum8 (slice rd 0 (n - 2)) then                   -- R145
    .err ⟨.checksumMismatch, (cksum8 (slice rd 0 (n - 2))).toNat, (rd (n - 2)).toNat⟩
  else
    match expected with
    | some exp =>
      if rd CMD_OFS ≠ exp then                                            -- R146
        .err ⟨.unexpectedCommand, exp.toNat, (rd CMD_OFS).toNat⟩
      else .ok ⟨rd DEV_OFS, rd CMD_OFS, PAYLOAD_OFS, n - FRAME_OVERHEAD⟩  -- R147
    | none => .ok ⟨rd DEV_OFS, rd CMD_OFS, PAYLOAD_OFS, n - FRAME_OVERHEAD⟩

/-- VALIDATE (R149): `IN[0..IN_LEN)` as a response frame, without the command check. -/
def execValidate (s : State) : Host.Outcome State Fault Refusal :=
  .next (finish (validateFrame (inByte s) (inputLen s) none) writeFrame s)

/-- VALIDATE.C (R150): the same, with the command check against `exp`. -/
def execValidateC (exp : Byte) (s : State) : Host.Outcome State Fault Refusal :=
  .next (finish (validateFrame (inByte s) (inputLen s) (some exp)) writeFrame s)

end Sys2Proof.Machine
end

