-- ==== Sys2Proof/Machine/Decoder.lean ====
section
/-! DEFINITION. The telemetry decoder (spec 43_telemetry_decoder.md): the field extractors, DECODE, VDECODE and VDECODE.C. -/

namespace Sys2Proof.Machine

/-- Battery status: two bytes big-endian, or one byte zero-extended (R182). -/
def bstatusField (L : Layout) (p : Nat → Byte) : Nat :=
  match L.bstatusWidth with
  | .two => be16 p L.bstatus
  | .one => (p L.bstatus).toNat

/-- The twelve fields at their `LAYOUT` offsets (R170, R173 to R184). -/
def extractRecord (L : Layout) (p : Nat → Byte) : TelemetryRecord :=
  { vtotal := be16 p L.vtotal
    current := (be16 p L.current : Int) - CURRENT_BIAS
    vcellMax := be16 p L.vcellMax
    vcellMin := be16 p L.vcellMin
    soc := be16 p L.soc
    tempMax := (be16 p L.tempMax : Int) - 10 * TEMP_BIAS
    tempMin := (be16 p L.tempMin : Int) - 10 * TEMP_BIAS
    relay := p L.relay
    din := p L.din
    bstatus := bstatusField L p
    fault := be16 p L.fault
    power := be16 p L.power }

/-- `decode(p)` (R170) on a payload of length `m` read through `p`: the length check (R171), then all fields. -/
def decodePayload (L : Layout) (p : Nat → Byte) (m : Nat) : Res TelemetryRecord :=
  if m < L.payloadMin then .err ⟨.payloadTooShort, L.payloadMin, m⟩
  else .ok (extractRecord L p)

/-- Validate, then decode the view of the validated payload (R188): decode runs only after validation succeeds, and
nothing is written before both have. -/
def validateDecode (L : Layout) (rd : Nat → Byte) (n : Nat) (expected : Option Byte) :
    Res (ValidatedFrame × TelemetryRecord) :=
  match validateFrame rd n expected with
  | .err r => .err r
  | .ok v =>
    match decodePayload L (viewFrom rd v.pofs) v.plen with
    | .err r => .err r
    | .ok t => .ok (v, t)

/-- The `VF_` registers and the record of one frame (R188, R190). -/
def writeFrameAndRecord (vt : ValidatedFrame × TelemetryRecord) (s : State) : State :=
  writeRecord vt.2 (writeFrame vt.1 s)

/-- DECODE (R187): `IN[0..IN_LEN)` as a bare payload. -/
def execDecode (s : State) : Host.Outcome State Fault Refusal :=
  .next (finish (decodePayload s.params.layout (inByte s) (inputLen s)) writeRecord s)

/-- VDECODE (R188). -/
def execVdecode (s : State) : Host.Outcome State Fault Refusal :=
  .next (finish (validateDecode s.params.layout (inByte s) (inputLen s) none) writeFrameAndRecord s)

/-- VDECODE.C (R189). -/
def execVdecodeC (exp : Byte) (s : State) : Host.Outcome State Fault Refusal :=
  .next (finish (validateDecode s.params.layout (inByte s) (inputLen s) (some exp)) writeFrameAndRecord s)

end Sys2Proof.Machine
end

