-- ==== Sys2Proof/Machine/Dispatch.lean ====
section
/-! DEFINITION. exec: one arm per constructor of Instr (spec R71). -/

namespace Sys2Proof.Machine

def exec (i : Instr) (s : State) : Host.Outcome State Fault Refusal :=
  match i with
  | .cksum => Sys2Proof.Machine.execCksum s
  | .build dev cmd => Sys2Proof.Machine.execBuild dev cmd s
  | .validate => Sys2Proof.Machine.execValidate s
  | .validateC exp => Sys2Proof.Machine.execValidateC exp s
  | .decode => Sys2Proof.Machine.execDecode s
  | .vdecode => Sys2Proof.Machine.execVdecode s
  | .vdecodeC exp => Sys2Proof.Machine.execVdecodeC exp s

end Sys2Proof.Machine
end

