-- ==== Sys2Proof/Machine/HostPort.lean ====
section
/-! DEFINITION. What each HOST action does to the block (spec R38): the port through which operations are issued. -/

namespace Sys2Proof.Machine

/-- `Issue(w)`: `OPWORD <- w`, then in the same step the operation `w` selects (R22, R71), or `IllegalOp(OPWORD, 0)` and
nothing else (R73, R219, R222). -/
def issue (w : Word) (s : State) : Host.Outcome State Fault Refusal :=
  match decodeOp w with
  | .instr i => exec i (s.setOpword w)
  | .illegal _ => .next (raise ⟨.illegalOp, w.toNat, 0⟩ (s.setOpword w))

/-- `WriteIN(i, b)`, `0 ≤ i < RAW_CAP` (R23, R38). -/
def writeIN (i : Nat) (b : Byte) (s : State) : Host.Outcome State Fault Refusal :=
  if i < s.params.rawCap then .next (s.setInBuf (s.inBuf.write i b)) else .fault .indexOutsideIn

/-- `WriteLEN(m)`, `0 ≤ m ≤ RAW_CAP` (R24, R38); a greater value has no step (R245). -/
def writeLEN (m : Word) (s : State) : Host.Outcome State Fault Refusal :=
  if m.toNat ≤ s.params.rawCap then .next (s.setInLen m) else .fault .lenAboveCapacity

/-- Does the block have the register? Only an index of `IN` can be outside it (R23, R38). -/
def readable (r : HostReg) (s : State) : Bool :=
  match r with
  | .inByte i => decide (i < s.params.rawCap)
  | .opword | .inLen | .result _ => true

/-- `Read(r)`: no effect on the block (R33); HOST gets the register's value (R38, R249). -/
def hostRead (r : HostReg) (s : State) : Host.Outcome State Fault Refusal :=
  if readable r s then .next (s.pushRead ⟨r, readReg r s⟩) else .fault .indexOutsideIn

/-- One action of HOST (R38), one step of the model. -/
def perform (a : HostAction) (s : State) : Host.Outcome State Fault Refusal :=
  match a with
  | .writeIN i b => writeIN i b s
  | .writeLEN m => writeLEN m s
  | .issue w => issue w s
  | .read r => hostRead r s
  | .reset => .next (resetBlock s)
  | .writeResult _ _ => .next s

/-- HOST takes no action: "No other event issues an operation" (R22), so nothing changes (log 1). -/
def idle (s : State) : Host.Outcome State Fault Refusal := .next s

end Sys2Proof.Machine
end

