-- ==== Sys2Proof/Machine/Step.lean ====
section
/-! DEFINITION. One step of the machine: the next action of HOST's sequence (spec R38, R59, R249). -/

namespace Sys2Proof.Machine

/-- One step: HOST's next action, or nothing when HOST takes none. -/
def step (s : State) : Host.Outcome State Fault Refusal :=
  match s.script with
  | [] => idle s
  | a :: rest => perform a (s.setScript rest)

/-- The state in which HOST's very next action issues the word `w` (log 1): the block fetches no instruction, an
operation is selected by one write of `OPWORD` (R22, R35). -/
def State.withFetchWord (s : State) (nbits w : Nat) : State :=
  s.setScript (.issue (BitVec.ofNat 32 (w % 2 ^ nbits)) :: s.script)

end Sys2Proof.Machine
end

