-- ==== Sys2Proof/Machine/Assembly.lean ====
section
/-! DEFINITION. The assembly language of spec R82 and R83: one operation a line, a mnemonic and then its operands, each a byte
in decimal or `0x` hexadecimal. How a line is split into words is the model's own (log 11). -/

namespace Sys2Proof.Machine

/-- The instruction an assembly line stands for. An operand outside 0 to 255, or a wrong number of operands, is an
assembly error (R82); a pseudo-instruction assembles only when `CMD_INFO` has a value (R83). -/
def assemble (cmdInfo : Option Byte) (l : AsmLine) : Option Instr :=
  if !l.wf then none
  else
    match l.mnemonic, l.operands, cmdInfo with
    | .cksum, [], _ => some .cksum
    | .build, [dev, cmd], _ => some (.build (BitVec.ofNat 8 dev) (BitVec.ofNat 8 cmd))
    | .validate, [], _ => some .validate
    | .validateC, [exp], _ => some (.validateC (BitVec.ofNat 8 exp))
    | .decode, [], _ => some .decode
    | .vdecode, [], _ => some .vdecode
    | .vdecodeC, [exp], _ => some (.vdecodeC (BitVec.ofNat 8 exp))
    | .buildInfo, [dev], some c => some (.build (BitVec.ofNat 8 dev) c)
    | .validateInfo, [], some c => some (.validateC c)
    | .readInfo, [], some c => some (.vdecodeC c)
    | _, _, _ => none

/-! The written form of a line. -/

/-- The spelling of a mnemonic (R82, R83). -/
def spelling : Mnemonic → String
  | .cksum => "CKSUM"
  | .build => "BUILD"
  | .validate => "VALIDATE"
  | .validateC => "VALIDATE.C"
  | .decode => "DECODE"
  | .vdecode => "VDECODE"
  | .vdecodeC => "VDECODE.C"
  | .buildInfo => "BUILDINFO"
  | .validateInfo => "VALIDATEINFO"
  | .readInfo => "READINFO"

/-- Every mnemonic. -/
def allMnemonics : List Mnemonic :=
  [.cksum, .build, .validate, .validateC, .decode, .vdecode, .vdecodeC, .buildInfo, .validateInfo, .readInfo]

/-- A piece of a line: a word or a comma. -/
inductive AsmToken where
  | word (cs : List Char)
  | comma
deriving DecidableEq, Repr

/-- Ends the word being read, if there is one; its letters are held last first. -/
def endWord (acc : List Char) (rest : List AsmToken) : List AsmToken :=
  if acc.isEmpty then rest else .word acc.reverse :: rest

/-- Splits a line at blanks and commas. -/
def asmTokens : List Char → List Char → List AsmToken
  | [], acc => endWord acc []
  | c :: cs, acc =>
    if c = ' ' then endWord acc (asmTokens cs [])
    else if c = ',' then endWord acc (.comma :: asmTokens cs [])
    else asmTokens cs (c :: acc)

/-- The value of a digit in the given base, hexadecimal letters in either case. -/
def digitValue (base : Nat) (c : Char) : Option Nat :=
  let v :=
    if '0' ≤ c ∧ c ≤ '9' then some (c.toNat - 48)
    else if 'a' ≤ c ∧ c ≤ 'f' then some (c.toNat - 87)
    else if 'A' ≤ c ∧ c ≤ 'F' then some (c.toNat - 55)
    else none
  v.filter fun d => decide (d < base)

/-- The number a run of digits stands for, from the value of the digits before it. -/
def digitsValue (base : Nat) : List Char → Nat → Option Nat
  | [], acc => some acc
  | c :: cs, acc => (digitValue base c).bind fun d => digitsValue base cs (acc * base + d)

/-- A number, "written in decimal or `0x` hexadecimal" (R82), with at least one digit. -/
def numberValue : List Char → Option Nat
  | [] => none
  | '0' :: 'x' :: [] => none
  | '0' :: 'x' :: cs => digitsValue 16 cs 0
  | cs => digitsValue 10 cs 0

/-- The mnemonic a word spells, letter for letter. -/
def mnemonicOf (cs : List Char) : Option Mnemonic := allMnemonics.find? fun m => (spelling m).toList == cs

/-- A line: a mnemonic, then no operand, one operand, or two operands with a comma between them (R82). -/
def parseLine (line : String) : Option AsmLine :=
  match asmTokens line.toList [] with
  | [.word m] => (mnemonicOf m).map fun m => ⟨m, []⟩
  | [.word m, .word a] => (mnemonicOf m).bind fun m => (numberValue a).map fun a => ⟨m, [a]⟩
  | [.word m, .word a, .comma, .word b] =>
    (mnemonicOf m).bind fun m => (numberValue a).bind fun a => (numberValue b).map fun b => ⟨m, [a, b]⟩
  | _ => none

/-- The operation word a written line assembles to (R82, R83), if it assembles. -/
def assembleLine (cmdInfo : Option Byte) (line : String) : Option Word :=
  ((parseLine line).bind (assemble cmdInfo)).map encode

end Sys2Proof.Machine
end

