-- ==== Sys2Proof/Machine/HostProgram.lean ====
section
/-! DEFINITION. Host programs (spec R82): HOST's actions, `LOAD`, and the branches of HOST's own program, which are "not an
operation of the block". A program item is at a position; a label is the position it names (log 12). -/

namespace Sys2Proof.Machine

/-- One item of a host program (R82, R38). -/
inductive HostItem where
  /-- An operation line, already assembled: it issues the instruction's word. -/
  | op (i : Instr)
  /-- Any action of R38 written out, `READ reg` among them. -/
  | act (a : HostAction)
  /-- `LOAD b0 b1 ... bk−1`. -/
  | load (bytes : List Byte)
  /-- `IF STATUS != OK GOTO label`. -/
  | ifNotOk (target : Nat)
  /-- `GOTO label`, as the program P3 of 95_test_vectors.md uses it. -/
  | goto (target : Nat)
deriving DecidableEq, Repr

/-- The `WriteIN` actions of `LOAD`, from index `i` on. -/
def writeBytesFrom (i : Nat) : List Byte → List HostAction
  | [] => []
  | b :: bs => .writeIN i b :: writeBytesFrom (i + 1) bs

/-- `LOAD`: "`WriteIN(i, bi)` for each `i`, then `WriteLEN(k)`" (R82). -/
def loadActions (bytes : List Byte) : List HostAction :=
  writeBytesFrom 0 bytes ++ [.writeLEN (BitVec.ofNat 32 bytes.length)]

/-- The actions an item takes; a branch takes none. -/
def HostItem.actions : HostItem → List HostAction
  | .op i => [.issue (encode i)]
  | .act a => [a]
  | .load bytes => loadActions bytes
  | .ifNotOk _ => []
  | .goto _ => []

/-- The position HOST goes on at after an item, in the state the item leaves. HOST learns `STATUS` by reading it, which
has no effect on the block (R27, R33). -/
def HostItem.nextPos (it : HostItem) (pos : Nat) (s : State) : Nat :=
  match it with
  | .ifNotOk target => if s.res.status = STATUS_OK then pos + 1 else target
  | .goto target => target
  | .op _ | .act _ | .load _ => pos + 1

/-- Actions one after another, up to the first stop. -/
def performAll : List HostAction → State → Host.Outcome State Fault Refusal
  | [], s => .next s
  | a :: rest, s =>
    match perform a s with
    | .next t => performAll rest t
    | .fault f => .fault f
    | .refused r => .refused r

/-- `fuel` items of a host program from a position; a position past the end ends the program. -/
def runProgram (prog : List HostItem) : Nat → Nat → State → Host.Outcome State Fault Refusal
  | 0, _, s => .next s
  | fuel + 1, pos, s =>
    match prog[pos]? with
    | none => .next s
    | some it =>
      match performAll it.actions s with
      | .next t => runProgram prog fuel (it.nextPos pos t) t
      | .fault f => .fault f
      | .refused r => .refused r

end Sys2Proof.Machine
end

