-- ==== Sys2Proof/Machine/Units.lean ====
section
/-! DEFINITION. What a telemetry register means (spec R8, R79, R186): an integer count of an exact rational step. Power has no
named unit and the current's sign no named direction (I12), so a value here is a bare rational. -/

namespace Sys2Proof.Machine

/-- The twelve payload fields, in the table order of R79. -/
inductive TrField where
  | vtotal | current | vcellMax | vcellMin | soc | tempMax | tempMin | relay | din | bstatus | fault | power
deriving DecidableEq, Repr

/-- The unit step of a field (R79, R186); flags and codes have none. -/
def TrField.step : TrField → Option Rat
  | .vtotal => some (1 / 10)
  | .current => some (1 / 10)
  | .vcellMax => some (1 / 1000)
  | .vcellMin => some (1 / 1000)
  | .soc => some (1 / 10)
  | .tempMax => some (1 / 10)
  | .tempMin => some (1 / 10)
  | .relay => none
  | .din => none
  | .bstatus => none
  | .fault => none
  | .power => some (1 / 10)

/-- The integer a field's register holds: the signed registers as two's complement, the others unsigned (R26). -/
def TrField.value (f : TrField) (r : Results) : Int :=
  match f with
  | .vtotal => r.trVtotal.toNat
  | .current => r.trCurrent.toInt
  | .vcellMax => r.trVcellMax.toNat
  | .vcellMin => r.trVcellMin.toNat
  | .soc => r.trSoc.toNat
  | .tempMax => r.trTempMax.toInt
  | .tempMin => r.trTempMin.toInt
  | .relay => r.trRelay.toNat
  | .din => r.trDin.toNat
  | .bstatus => r.trBstatus.toNat
  | .fault => r.trFault.toNat
  | .power => r.trPower.toNat

/-- The physical value of a field: the register's integer times the field's step, exactly (R32, R186). -/
def TrField.physical (f : TrField) (r : Results) : Option Rat := f.step.map fun q => (f.value r : Rat) * q

/-- A field's unsigned value as read from the payload, before any transform (R14 "raw", R79). -/
def TrField.raw (f : TrField) (L : Layout) (p : Nat → Byte) : Nat :=
  match f with
  | .vtotal => be16 p L.vtotal
  | .current => be16 p L.current
  | .vcellMax => be16 p L.vcellMax
  | .vcellMin => be16 p L.vcellMin
  | .soc => be16 p L.soc
  | .tempMax => be16 p L.tempMax
  | .tempMin => be16 p L.tempMin
  | .relay => (p L.relay).toNat
  | .din => (p L.din).toNat
  | .bstatus => bstatusField L p
  | .fault => be16 p L.fault
  | .power => be16 p L.power

/-- The source's transform of a scaled field, as R79 gives it: `raw × 0.1`, `(raw − 16000) × 0.1`, `raw × 0.001`,
`(raw × 0.1) − 40`; a passthrough or bitfield has none. -/
def TrField.sourceTransform (f : TrField) (raw : Nat) : Option Rat :=
  match f with
  | .vtotal => some ((raw : Rat) * (1 / 10))
  | .current => some (((raw : Rat) - 16000) * (1 / 10))
  | .vcellMax => some ((raw : Rat) * (1 / 1000))
  | .vcellMin => some ((raw : Rat) * (1 / 1000))
  | .soc => some ((raw : Rat) * (1 / 10))
  | .tempMax => some ((raw : Rat) * (1 / 10) - 40)
  | .tempMin => some ((raw : Rat) * (1 / 10) - 40)
  | .relay => none
  | .din => none
  | .bstatus => none
  | .fault => none
  | .power => some ((raw : Rat) * (1 / 10))

end Sys2Proof.Machine
end

