-- ==== Sys2Proof/Safety.lean ====
section
/-! DEFINITION. What counts as a good state and a good action, in the terms the statements use. -/

namespace Sys2Proof.Machine

/-- Every result register other than `STATUS`, `ERR_X` and `ERR_Y` is 0 (R27). -/
def Results.holdNoValue (r : Results) : Prop :=
  r.ck = 0#8 ∧ r.req = Vector.replicate 8 0#8 ∧
  r.vfDev = 0#8 ∧ r.vfCmd = 0#8 ∧ r.vfPofs = 0#32 ∧ r.vfPlen = 0#32 ∧
  r.trVtotal = 0#16 ∧ r.trCurrent = 0#32 ∧ r.trVcellMax = 0#16 ∧ r.trVcellMin = 0#16 ∧ r.trSoc = 0#16 ∧
  r.trTempMax = 0#32 ∧ r.trTempMin = 0#32 ∧ r.trRelay = 0#8 ∧ r.trDin = 0#8 ∧ r.trBstatus = 0#16 ∧
  r.trFault = 0#16 ∧ r.trPower = 0#16

/-- The invariant of the machine. -/
structure State.Inv (s : State) : Prop where
  /-- The parameters are ones a block can have (R7, R78). -/
  params : s.params.wf = true
  /-- The written bytes of `IN` are in canonical form. -/
  memory : Memory.wf s.inBuf
  /-- `IN` has `RAW_CAP` bytes (R23). -/
  indices : ∀ c ∈ s.inBuf, c.1 < s.params.rawCap
  /-- `0 ≤ n ≤ RAW_CAP` (R24). -/
  length : s.inLen.toNat ≤ s.params.rawCap
  /-- `STATUS` never holds a reserved code (R81). -/
  status : statusLegal s.res.status = true
  /-- The results hold a value only when `STATUS = OK` (R27). -/
  failed : s.res.status ≠ STATUS_OK → s.res.holdNoValue
  /-- When `STATUS = OK`, and before any operation, both error details are 0 (R28, R240). -/
  details : s.res.status = STATUS_OK ∨ s.res.status = STATUS_NONE → s.res.errX = 0#32 ∧ s.res.errY = 0#32
  /-- The payload view is empty and at 0, or starts at byte 6 (R31, R147). -/
  view : (s.res.vfPofs = 0#32 ∧ s.res.vfPlen = 0#32) ∨ s.res.vfPofs = 6#32
  /-- The ranges of the biased fields (R174, R178, R179). -/
  current : -16000 ≤ s.res.trCurrent.toInt ∧ s.res.trCurrent.toInt ≤ 49535
  tempMax : -400 ≤ s.res.trTempMax.toInt ∧ s.res.trTempMax.toInt ≤ 65135
  tempMin : -400 ≤ s.res.trTempMin.toInt ∧ s.res.trTempMin.toInt ≤ 65135

/-- Is the action one R38 gives HOST on a block with these parameters? -/
def HostAction.allowed (a : HostAction) (p : Params) : Bool :=
  match a with
  | .writeIN i _ => decide (i < p.rawCap)
  | .writeLEN m => decide (m.toNat ≤ p.rawCap)
  | .read (.inByte i) => decide (i < p.rawCap)
  | .read .opword => true
  | .read .inLen => true
  | .read (.result _) => true
  | .issue _ => true
  | .reset => true
  | .writeResult _ _ => true

end Sys2Proof.Machine
end

