-- ==== Sys2Proof/Certificates/Slice0/Obligations.lean ====
section
/-! DEFINITION. The statements for the provers. They say what an operation leaves in terms of the bytes of `IN`, sums and
plain numbers, not through the model's own helper functions. -/

namespace Sys2Proof.Claim

open Sys2Proof.Machine

/-! The terms the statements use. -/

/-- The big-endian number at index `o` of `IN` (R51), written out. -/
def word16 (s : State) (o : Nat) : Nat := (inByte s o).toNat * 256 + (inByte s (o + 1)).toNat

/-- The sum of `IN[0..j)` (R11). -/
def sumTo (s : State) (j : Nat) : Nat := ∑ i ∈ Finset.range j, (inByte s i).toNat

/-- The result state an error leaves (R223): its code, its two details, all else 0. -/
def errorResults (code : BitVec 4) (x y : Nat) : Results :=
  { Results.zeroExcept code with errX := BitVec.ofNat 32 x, errY := BitVec.ofNat 32 y }

/-- The result state a successful VALIDATE leaves (R147, R149). -/
def frameResults (s : State) : Results :=
  { Results.zeroExcept 0x0#4 with
    vfDev := inByte s 4, vfCmd := inByte s 5, vfPofs := 6#32, vfPlen := BitVec.ofNat 32 (s.inLen.toNat - 8) }

/-- The `TR_` registers of the payload that starts at index `o` of `IN`, on top of other results (R173 to R184, R190). -/
def withRecord (s : State) (o : Nat) (r : Results) : Results :=
  let L := s.params.layout
  { r with
    trVtotal := BitVec.ofNat 16 (word16 s (o + L.vtotal))
    trCurrent := BitVec.ofInt 32 ((word16 s (o + L.current) : Int) - 16000)
    trVcellMax := BitVec.ofNat 16 (word16 s (o + L.vcellMax))
    trVcellMin := BitVec.ofNat 16 (word16 s (o + L.vcellMin))
    trSoc := BitVec.ofNat 16 (word16 s (o + L.soc))
    trTempMax := BitVec.ofInt 32 ((word16 s (o + L.tempMax) : Int) - 400)
    trTempMin := BitVec.ofInt 32 ((word16 s (o + L.tempMin) : Int) - 400)
    trRelay := inByte s (o + L.relay)
    trDin := inByte s (o + L.din)
    trBstatus := BitVec.ofNat 16
      (if L.bstatusWidth = .two then word16 s (o + L.bstatus) else (inByte s (o + L.bstatus)).toNat)
    trFault := BitVec.ofNat 16 (word16 s (o + L.fault))
    trPower := BitVec.ofNat 16 (word16 s (o + L.power)) }

/-- The checks of the validator in the priority of R220, each with the report it makes (R211 to R216). -/
def checks (expected : Option Byte) (s : State) : List (Bool × BitVec 4 × Nat × Nat) :=
  let n := s.inLen.toNat
  [ (decide (n < 8), 0x1#4, 8, n),
    (!(inByte s 0 == 0xAA#8 && inByte s 1 == 0x55#8), 0x2#4, 0xAA55, word16 s 0),
    (inByte s (n - 1) != 0x68#8, 0x3#4, 0x68, (inByte s (n - 1)).toNat),
    (word16 s 2 != n - 4, 0x4#4, word16 s 2, n - 4),
    ((inByte s (n - 2)).toNat != sumTo s (n - 2) % 256, 0x5#4, sumTo s (n - 2) % 256, (inByte s (n - 2)).toNat),
    (expected.any (fun e => inByte s 5 != e), 0x6#4, (expected.getD 0#8).toNat, (inByte s 5).toNat) ]

/-- The report of the first failing check (R220), if one fails. -/
def firstFailure (expected : Option Byte) (s : State) : Option (BitVec 4 × Nat × Nat) :=
  ((checks expected s).find? (fun c => c.1)).map (fun c => c.2)

/-- What VALIDATE or VALIDATE.C must leave. -/
def validateResults (expected : Option Byte) (s : State) : Results :=
  match firstFailure expected s with
  | some (c, x, y) => errorResults c x y
  | none => frameResults s

/-- What VDECODE or VDECODE.C must leave (R188, R189, R221). -/
def vdecodeResults (expected : Option Byte) (s : State) : Results :=
  match firstFailure expected s with
  | some (c, x, y) => errorResults c x y
  | none =>
    if s.inLen.toNat - 8 < s.params.layout.payloadMin then
      errorResults 0x7#4 s.params.layout.payloadMin (s.inLen.toNat - 8)
    else withRecord s 6 (frameResults s)

/-- The input of an operation in `s` is the byte sequence `l` (R25). -/
def holdsInput (s : State) (l : List Byte) : Prop :=
  s.inLen.toNat = l.length ∧ ∀ i, (h : i < l.length) → inByte s i = l[i]

/-- What both frames hold before the checksum byte: markers, length field, device, command, payload (R76). -/
def frameHead (dev cmd : Byte) (payload : List Byte) : List Byte :=
  [0xAA#8, 0x55#8, BitVec.ofNat 8 ((payload.length + 4) / 256), BitVec.ofNat 8 (payload.length + 4), dev, cmd] ++ payload

/-- The well-formed response frame of a payload (R76). -/
def responseFrame (dev cmd : Byte) (payload : List Byte) : List Byte :=
  frameHead dev cmd payload ++ [BitVec.ofNat 8 ((frameHead dev cmd payload).map BitVec.toNat).sum, 0x68#8]

/-- The operations that validate a response frame. -/
def validates : Instr → Bool
  | .validate | .validateC _ | .vdecode | .vdecodeC _ => true
  | .cksum | .build _ _ | .decode => false

/-- The operations that decode a payload. -/
def decodes : Instr → Bool
  | .decode | .vdecode | .vdecodeC _ => true
  | .cksum | .build _ _ | .validate | .validateC _ => false

/-- The operations with the command check. -/
def checksCommand : Instr → Bool
  | .validateC _ | .vdecodeC _ => true
  | .cksum | .build _ _ | .validate | .decode | .vdecode => false

/-- The command an operation expects, if it has the command check (R72). -/
def expectedCommand : Instr → Option Byte
  | .validateC exp | .vdecodeC exp => some exp
  | .cksum | .build _ _ | .validate | .decode | .vdecode => none

/-- Does the operation reach the decoder? DECODE does at once, VDECODE and VDECODE.C when validation succeeds (R187 to
R189). -/
def reachesDecoder (i : Instr) (s : State) : Prop :=
  decodes i = true ∧ (validates i = true → firstFailure (expectedCommand i) s = none)

/-- Where the payload of a decoding operation starts in `IN`: at 0 for a bare payload, at 6 in a frame (R147, R187). -/
def payloadStart (i : Instr) : Nat := if validates i then 6 else 0

/-- How long the payload of a decoding operation is (R147, R187, R217). -/
def payloadLength (i : Instr) (s : State) : Nat := if validates i then s.inLen.toNat - 8 else s.inLen.toNat

/-- The words R73 calls illegal, kind by kind. -/
def illegalWord (w : Word) : Prop :=
  let op := w.toNat % 16
  let rsv0 := w.toNat / 16 % 16
  let b := w.toNat / 256 % 256
  let a := w.toNat / 65536 % 256
  let rsv1 := w.toNat / 16777216
  op = 0 ∨ 8 ≤ op ∨ rsv0 ≠ 0 ∨ rsv1 ≠ 0 ∨
  ((op = 1 ∨ op = 3 ∨ op = 5 ∨ op = 6) ∧ (a ≠ 0 ∨ b ≠ 0)) ∨ ((op = 4 ∨ op = 7) ∧ a ≠ 0)

/-- Everything of the machine but the result state is as before, every byte of `IN` included. -/
def onlyResultsDiffer (s t : State) : Prop :=
  t.params = s.params ∧ t.opword = s.opword ∧ t.inBuf = s.inBuf ∧ t.inLen = s.inLen ∧ t.inDraw = s.inDraw ∧
  t.script = s.script ∧ t.reads = s.reads ∧ ∀ i, inByte t i = inByte s i

/-- The bytes of a payload that lie inside one of the twelve fields (R78, R172). -/
def insideField (L : Layout) (k : Nat) : Prop := ∃ f ∈ L.fields, f.1 ≤ k ∧ k < f.1 + f.2

/-- A 16-bit number as two bytes, the more significant first (R51). -/
def bytes16 (v : BitVec 16) : List Byte := [v.extractLsb' 8 8, v.extractLsb' 0 8]

/-- A payload written field by field under `LAYOUT_REF` (R79): the symmetric encoder of the round-trip property. -/
def payloadOf (vtotal current vcellMax vcellMin soc tempMax tempMin : BitVec 16) (relay din : Byte)
    (bstatus fault power : BitVec 16) : List Byte :=
  bytes16 vtotal ++ bytes16 current ++ bytes16 vcellMax ++ bytes16 vcellMin ++ bytes16 soc ++ bytes16 tempMax ++
  bytes16 tempMin ++ [relay, din] ++ bytes16 bstatus ++ bytes16 fault ++ bytes16 power

/-- The error a mutated offset of a valid `n`-byte frame gives (R153's table). -/
def mutationError (n k : Nat) : BitVec 4 :=
  if k < 2 then 0x2#4 else if k = n - 1 then 0x3#4 else if k < 4 then 0x4#4 else 0x5#4

end Sys2Proof.Claim

open Sys2Proof Sys2Proof.Machine Sys2Proof.Claim

/-! ### Encoding -/

/-- Words written out from R71's table decode to the operation they stand for, operands included (one word per row). -/
def Obligations.TableWordsDecode : Prop :=
  decodeOp 0x00000001#32 = .instr .cksum ∧ decodeOp 0x00010302#32 = .instr (.build 0x01#8 0x03#8) ∧
  decodeOp 0x00000003#32 = .instr .validate ∧ decodeOp 0x00000404#32 = .instr (.validateC 0x04#8) ∧
  decodeOp 0x00000005#32 = .instr .decode ∧ decodeOp 0x00000006#32 = .instr .vdecode ∧
  decodeOp 0x00000307#32 = .instr (.vdecodeC 0x03#8)

/-- Decoding the word of any instruction gives it back, every operand at every value (R71, R74). -/
def Obligations.DecodeOfEncodeIsIdentity : Prop := ∀ i : Instr, decodeOp (encode i) = .instr i

/-- A word that decodes to an instruction is that instruction's word: each instruction has one word (R71). -/
def Obligations.EncodeOfDecodeIsIdentity : Prop := ∀ (w : Word) (i : Instr), decodeOp w = .instr i → encode i = w

/-- The decoder of R74's pseudocode accepts exactly the words of R71's table (by mask and fixed bits), and those are
exactly the words R73 does not list as illegal. -/
def Obligations.DecoderAcceptsExactlyTheTableRows : Prop :=
  ∀ w : Word, (wordLegal w = true ↔ ∃ i, decodeOp w = .instr i) ∧ (wordLegal w = false ↔ illegalWord w)

/-- R73, R219: issuing an illegal word performs no operation, reads neither `IN` nor `IN_LEN`, and ends with
`IllegalOp(OPWORD, 0)`: `STATUS = 0xE`, `ERR_X = OPWORD`, `ERR_Y = 0`, all other results 0, nothing else changed. No legal
word ends so. -/
def Obligations.IllegalWordEndsInIllegalOp : Prop :=
  ∀ (w : Word) (s : State),
    (illegalWord w →
      issue w s = .next { s with opword := w, res := { Results.zeroExcept 0xE#4 with errX := w } }) ∧
    (¬ illegalWord w → ∃ t, issue w s = .next t ∧ t.res.status ≠ 0xE#4)

/-! ### The step and the host's actions -/

/-- A step whose next HOST action issues a legal word is `exec` of the decoded instruction, in the state in which HOST's
action is taken and `OPWORD` holds the word; `withFetchWord` makes that the very next action. -/
def Obligations.StepRunsTheDecodedInstruction : Prop :=
  ∀ (s : State) (w : Word) (i : Instr), decodeOp w = .instr i →
    (∀ rest, s.script = .issue w :: rest → step s = exec i { s with script := rest, opword := w }) ∧
    step (s.withFetchWord 32 w.toNat) = exec i { s with opword := w }

/-- Whatever HOST has done before, a sequence of actions R38 gives HOST reaches its end: no hang and no stuck state
(R249), with as many steps as actions. That a step takes the first of HOST's pending actions is the model's choice (log 1),
and so is that the parameters stay as they were, a Reset among the actions included (log 3, log 10). -/
def Obligations.AllowedRunReachesItsEnd : Prop :=
  ∀ s : State, (∀ a ∈ s.script, a.allowed s.params = true) →
    ∃ t, Host.Core.run Sys2Proof.core s.script.length s = .next t ∧ t.script = [] ∧ t.params = s.params

/-- A step stops exactly when HOST breaks a duty: a length above `RAW_CAP` (R24, R245) or an index outside `IN` (R23,
R38). The fault is the model's choice for an action with no step (log 6, log 7). -/
def Obligations.StepStopsOnlyOnForbiddenActions : Prop :=
  ∀ (s : State) (a : HostAction) (rest : List HostAction), s.script = a :: rest →
    ((∃ t, step s = .next t) ↔ a.allowed s.params = true) ∧
    (∀ m : Word, a = .writeLEN m → s.params.rawCap < m.toNat → step s = .fault .lenAboveCapacity) ∧
    (∀ (i : Nat) (b : Byte), a = .writeIN i b → s.params.rawCap ≤ i → step s = .fault .indexOutsideIn)

/-- `WriteIN(i, b)` for `i < RAW_CAP` changes byte `i` of `IN` and nothing else (R23, R38). -/
def Obligations.WriteInChangesOneByte : Prop :=
  ∀ (s : State) (i : Nat) (b : Byte), i < s.params.rawCap →
    ∃ t, perform (.writeIN i b) s = .next t ∧ inByte t i = b ∧ (∀ j, j ≠ i → inByte t j = inByte s j) ∧
      t.params = s.params ∧ t.opword = s.opword ∧ t.inLen = s.inLen ∧ t.res = s.res ∧ t.script = s.script ∧
      t.reads = s.reads

/-- `WriteLEN(m)` for `m ≤ RAW_CAP` sets `IN_LEN` and changes nothing else (R24, R38), and a HOST write to a result
register, whichever it is, has no effect (R26). -/
def Obligations.WriteLenSetsTheLength : Prop :=
  ∀ (s : State) (m : Word) (r : ResultReg) (v : Word),
    (m.toNat ≤ s.params.rawCap → perform (.writeLEN m) s = .next { s with inLen := m }) ∧
    perform (.writeResult r v) s = .next s

/-- What a `Read` gives HOST is the register's value (R22, R26, R38), for every register; the signed ones as their two's
complement pattern. That a narrower value is extended by zeros is the model's form of the observation (log 2). -/
def Obligations.ReadsReturnTheRegisters : Prop :=
  ∀ s : State,
    readReg .opword s = s.opword ∧ readReg .inLen s = s.inLen ∧
    (∀ i, (readReg (.inByte i) s).toNat = (inByte s i).toNat) ∧
    (readReg (.result .status) s).toNat = s.res.status.toNat ∧
    readReg (.result .errX) s = s.res.errX ∧ readReg (.result .errY) s = s.res.errY ∧
    (readReg (.result .ck) s).toNat = s.res.ck.toNat ∧
    (∀ i : Fin 8, (readReg (.result (.req i)) s).toNat = s.res.req[i].toNat) ∧
    (readReg (.result .vfDev) s).toNat = s.res.vfDev.toNat ∧ (readReg (.result .vfCmd) s).toNat = s.res.vfCmd.toNat ∧
    readReg (.result .vfPofs) s = s.res.vfPofs ∧ readReg (.result .vfPlen) s = s.res.vfPlen ∧
    (readReg (.result .trVtotal) s).toNat = s.res.trVtotal.toNat ∧
    (readReg (.result .trCurrent) s).toInt = s.res.trCurrent.toInt ∧
    (readReg (.result .trVcellMax) s).toNat = s.res.trVcellMax.toNat ∧
    (readReg (.result .trVcellMin) s).toNat = s.res.trVcellMin.toNat ∧
    (readReg (.result .trSoc) s).toNat = s.res.trSoc.toNat ∧
    (readReg (.result .trTempMax) s).toInt = s.res.trTempMax.toInt ∧
    (readReg (.result .trTempMin) s).toInt = s.res.trTempMin.toInt ∧
    (readReg (.result .trRelay) s).toNat = s.res.trRelay.toNat ∧ (readReg (.result .trDin) s).toNat = s.res.trDin.toNat ∧
    (readReg (.result .trBstatus) s).toNat = s.res.trBstatus.toNat ∧
    (readReg (.result .trFault) s).toNat = s.res.trFault.toNat ∧ (readReg (.result .trPower) s).toNat = s.res.trPower.toNat

/-- `LOAD b0 … bk−1` (R82) leaves exactly those bytes as the input of the next operation, and the results as they were
(R59). -/
def Obligations.LoadMakesTheBytesTheInput : Prop :=
  ∀ (s : State) (bytes : List Byte), bytes.length ≤ s.params.rawCap → bytes.length < 2 ^ 32 →
    ∃ t, performAll (loadActions bytes) s = .next t ∧ holdsInput t bytes ∧ t.res = s.res ∧ t.opword = s.opword ∧
      t.params = s.params ∧ t.script = s.script ∧ t.reads = s.reads ∧
      ∀ j, bytes.length ≤ j → inByte t j = inByte s j

/-- Reads (R33): any number of them leaves the machine as it was but for what HOST has seen, each returns the value the
register had before the first of them, and so two reads of one register return the same value. The form of what HOST has
seen (a list, the latest first, narrow values extended by zeros) is the model's choice (log 2). -/
def Obligations.ReadsHaveNoSideEffect : Prop :=
  ∀ (s : State) (regs : List HostReg), (∀ r ∈ regs, (HostAction.read r).allowed s.params = true) →
    performAll (regs.map .read) s =
      .next { s with reads := (regs.map fun r => ⟨r, readReg r s⟩).reverse ++ s.reads }

/-! ### Invariants and frames -/

/-- Every step keeps the invariant of Safety.lean. -/
def Obligations.StepKeepsTheInvariant : Prop := ∀ s t : State, s.Inv → step s = .next t → t.Inv

/-- The invariant holds right after reset (the parameters there are the model's choice, log 3). -/
def Obligations.ResetHasTheInvariant : Prop := State.reset.Inv

/-- R56: CODEC never writes `IN`, `IN_LEN` or `OPWORD`; it writes only the result registers and `REQ`. An operation
answers a next state, in which everything but the result state is as before, whatever the operation is, and an issue
changes `OPWORD` besides, which is HOST's write. -/
def Obligations.OperationsWriteOnlyResults : Prop :=
  (∀ (i : Instr) (s : State), ∃ t, exec i s = .next t ∧ onlyResultsDiffer s t) ∧
  (∀ (w : Word) (s : State), ∃ t, issue w s = .next t ∧ onlyResultsDiffer { s with opword := w } t)

/-- Which result registers an operation can leave non-zero (R26's last column, R27 to R32), and that results and error
details exclude each other. -/
def Obligations.ResultRegistersByOperation : Prop :=
  ∀ (i : Instr) (s t : State), exec i s = .next t →
    (t.res.status = 0x0#4 → t.res.errX = 0#32 ∧ t.res.errY = 0#32) ∧
    (t.res.status ≠ 0x0#4 → t.res.holdNoValue) ∧
    (i ≠ .cksum → t.res.ck = 0#8) ∧
    ((∀ dev cmd, i ≠ .build dev cmd) → t.res.req = Vector.replicate 8 0#8) ∧
    (validates i = false → t.res.vfDev = 0#8 ∧ t.res.vfCmd = 0#8 ∧ t.res.vfPofs = 0#32 ∧ t.res.vfPlen = 0#32) ∧
    (decodes i = false →
      t.res.trVtotal = 0#16 ∧ t.res.trCurrent = 0#32 ∧ t.res.trVcellMax = 0#16 ∧ t.res.trVcellMin = 0#16 ∧
      t.res.trSoc = 0#16 ∧ t.res.trTempMax = 0#32 ∧ t.res.trTempMin = 0#32 ∧ t.res.trRelay = 0#8 ∧
      t.res.trDin = 0#8 ∧ t.res.trBstatus = 0#16 ∧ t.res.trFault = 0#16 ∧ t.res.trPower = 0#16)

/-- Which operation can raise which error (R211 to R218): the converse of every "Raised by". CKSUM and BUILD raise none. -/
def Obligations.ErrorsAreRaisedByTheirOperations : Prop :=
  ∀ (i : Instr) (s : State), ∃ t, exec i s = .next t ∧ t.res.status.toNat ≤ 7 ∧
    (validates i = false → decodes i = false → t.res.status = 0x0#4) ∧
    (1 ≤ t.res.status.toNat → t.res.status.toNat ≤ 5 → validates i = true) ∧
    (t.res.status = 0x6#4 → checksCommand i = true) ∧
    (t.res.status = 0x7#4 → decodes i = true)

/-- R21, R25: the result state after an issue is a function of `OPWORD`, `IN_LEN` and `IN[0..IN_LEN)` alone (under one
`LAYOUT`): never of bytes at or above `IN_LEN`, of earlier results, or of anything else. -/
def Obligations.ResultsDependOnTheInputAlone : Prop :=
  ∀ (w : Word) (s t : State), s.params.layout = t.params.layout → s.inLen = t.inLen →
    (∀ i, i < s.inLen.toNat → inByte s i = inByte t i) →
    ∃ s' t', issue w s = .next s' ∧ issue w t = .next t' ∧ s'.res = t'.res

/-- R58: reads of `IN` have no side effects, and issuing the same word again, with `IN_LEN` and `IN[0..IN_LEN)` unchanged,
leaves the same result state. -/
def Obligations.OperationsAreIdempotent : Prop :=
  ∀ (w : Word) (s t u : State), issue w s = .next t → u.params = t.params → u.inLen = t.inLen →
    (∀ i, i < t.inLen.toNat → inByte u i = inByte t i) →
    (∀ i, inByte t i = inByte s i) ∧ ∃ v, issue w u = .next v ∧ v.res = t.res

/-! ### Reset -/

/-- R240, R241: reset, at any time, puts every result register, `OPWORD` and `IN_LEN` at the value R240 gives, and so does
the reset state. Nothing is said of the bytes of `IN`: no operation issued then depends on them. Reset issues no operation,
`STATUS` stays None through every HOST action that is not an issue, and a HOST write of 0 to `OPWORD` is an issue and
raises `IllegalOp`. -/
def Obligations.ResetGivesTheResetValues : Prop :=
  (∀ s : State, ∃ t, perform .reset s = .next t ∧
    t.res = Results.zeroExcept 0xF#4 ∧ t.opword = 0#32 ∧ t.inLen = 0#32 ∧
    State.reset.res = t.res ∧ State.reset.opword = t.opword ∧ State.reset.inLen = t.inLen ∧
    (∀ (w : Word) (v : State), v.params = t.params → v.inLen = t.inLen →
      ∃ t' v', issue w t = .next t' ∧ issue w v = .next v' ∧ t'.res = v'.res) ∧
    ∃ u, perform (.issue 0#32) t = .next u ∧ u.res = errorResults 0xE#4 0 0) ∧
  (∀ (a : HostAction) (v v' : State), v.res.status = 0xF#4 → (∀ w, a ≠ .issue w) → perform a v = .next v' →
    v'.res.status = 0xF#4)

/-- R243's last sentences: what operations issued straight after reset give, under any `LAYOUT`. -/
def Obligations.OperationsStraightAfterReset : Prop :=
  ∀ s t : State, perform .reset s = .next t →
    (∃ u, issue 0x00000003#32 t = .next u ∧ u.res = errorResults 0x1#4 8 0) ∧
    (∃ u, issue 0x00000005#32 t = .next u ∧ u.res = errorResults 0x7#4 t.params.layout.payloadMin 0) ∧
    (∃ u, issue 0x00000001#32 t = .next u ∧ u.res = Results.zeroExcept 0x0#4)

/-! ### Checksum engine -/

/-- R100: `cksum8(s)` is the low 8 bits of the sum, 0 for the empty sequence, and does not depend on the order of
summation. -/
def Obligations.ChecksumIsSumModulo256 : Prop :=
  (∀ l : List Byte, (cksum8 l).toNat = (l.map BitVec.toNat).sum % 256) ∧ cksum8 [] = 0#8 ∧
  ∀ l m : List Byte, l.Perm m → cksum8 l = cksum8 m

/-- R103's loop: the 8-bit accumulator that wraps at every byte ends at the same checksum as the integer sum. -/
def Obligations.AccumulatorLoopIsTheChecksum : Prop :=
  ∀ l : List Byte, l.foldl (fun acc b => acc + b) 0#8 = cksum8 l

/-- R102: changing one byte of a range always changes its checksum, so does flipping one bit, and two changes can
cancel: adding 1 to one byte and subtracting 1 from another leaves it unchanged. -/
def Obligations.OneChangedByteChangesTheChecksum : Prop :=
  (∀ (l r : List Byte) (b c : Byte), b ≠ c → cksum8 (l ++ b :: r) ≠ cksum8 (l ++ c :: r)) ∧
  (∀ (l r : List Byte) (b : Byte) (k : Nat), k < 8 → cksum8 (l ++ b :: r) ≠ cksum8 (l ++ (b ^^^ BitVec.twoPow 8 k) :: r)) ∧
  (∀ (l m r : List Byte) (b c : Byte), b ≠ 255#8 → c ≠ 0#8 →
    cksum8 (l ++ b :: m ++ c :: r) = cksum8 (l ++ (b + 1#8) :: m ++ (c - 1#8) :: r))

/-- R103: CKSUM, for any `IN_LEN` and any bytes, leaves the sum of `IN[0..IN_LEN)` modulo 256 in `CK`, `STATUS = OK`,
every other result 0, and changes nothing else. Its word is `0x00000001`. -/
def Obligations.CksumGivesTheInputChecksum : Prop :=
  decodeOp 0x00000001#32 = .instr .cksum ∧
  ∀ s : State, exec .cksum s =
    .next { s with res := { Results.zeroExcept 0x0#4 with ck := BitVec.ofNat 8 (sumTo s s.inLen.toNat) } }

/-! ### Request builder -/

/-- R120: BUILD leaves the frame `5A A5 00 04 dev cmd (3 + dev + cmd) 68` in `REQ`, for any two bytes, `STATUS = OK`, every
other result 0, and changes nothing else; it reads neither `IN` nor `IN_LEN`. Its word is `0x00ddcc02`. -/
def Obligations.BuildWritesTheRequestFrame : Prop :=
  ∀ (dev cmd : Byte) (s : State),
    decodeOp (BitVec.ofNat 32 (dev.toNat * 65536 + cmd.toNat * 256 + 2)) = .instr (.build dev cmd) ∧
    exec (.build dev cmd) s =
    .next { s with res := { Results.zeroExcept 0x0#4 with
      req := #v[0x5A#8, 0xA5#8, 0x00#8, 0x04#8, dev, cmd, 3#8 + dev + cmd, 0x68#8] } }

/-- R122: the properties of every frame BUILD produces, the checksum byte being the truncated sum of the bytes before it;
and two BUILDs with the same operands give identical frames, whatever the states they run in. -/
def Obligations.BuiltFrameHasTheProperties : Prop :=
  ∀ (dev cmd : Byte) (s s' : State), ∃ t t', exec (.build dev cmd) s = .next t ∧ exec (.build dev cmd) s' = .next t' ∧
    t.res.req = t'.res.req ∧ t.res.req.toList.length = 8 ∧
    t.res.req[0] = 0x5A#8 ∧ t.res.req[1] = 0xA5#8 ∧ t.res.req[7] = 0x68#8 ∧
    t.res.req[2].toNat * 256 + t.res.req[3].toNat = 4 ∧
    t.res.req[6].toNat = ((t.res.req.toList.take 6).map BitVec.toNat).sum % 256

/-- R123: a request frame looped back into `IN` never validates: every operation that validates ends in
`BadStartMarker`, with the request's own start marker as the received one. -/
def Obligations.RequestNeverValidates : Prop :=
  ∀ (dev cmd : Byte) (i : Instr) (s t u : State), exec (.build dev cmd) s = .next t →
    holdsInput u t.res.req.toList → validates i = true →
    exec i u = .next { u with res := errorResults 0x2#4 0xAA55 0x5AA5 }

/-! ### Response validator -/

/-- R149: VALIDATE reports the first check that fails in the order of R220, with that error's details and every other
result 0, or, when none fails, leaves device, command and payload view of the frame; it changes nothing else. Its word is
`0x00000003`. -/
def Obligations.ValidateReportsTheFirstFailure : Prop :=
  decodeOp 0x00000003#32 = .instr .validate ∧
  ∀ s : State, exec .validate s = .next { s with res := validateResults none s }

/-- R150: VALIDATE.C does the same with the command check last, for every expected byte. Its word is
`0x0000ee04`. -/
def Obligations.ValidateCReportsTheFirstFailure : Prop :=
  ∀ (exp : Byte) (s : State),
    decodeOp (BitVec.ofNat 32 (exp.toNat * 256 + 4)) = .instr (.validateC exp) ∧
    exec (.validateC exp) s = .next { s with res := validateResults (some exp) s }

/-- R76, R140, R155: VALIDATE succeeds exactly on the well-formed response frames: any device, any command, any payload
of up to 65531 bytes, and then the `VF_` registers name that device, command and payload. -/
def Obligations.ValidationAcceptsExactlyWellFormedFrames : Prop :=
  ∀ s : State, ∃ t, exec .validate s = .next t ∧
    (t.res.status = 0x0#4 ↔ ∃ dev cmd payload, payload.length ≤ 65531 ∧ holdsInput s (responseFrame dev cmd payload)) ∧
    ∀ dev cmd payload, payload.length ≤ 65531 → holdsInput s (responseFrame dev cmd payload) →
      t.res.vfDev = dev ∧ t.res.vfCmd = cmd ∧ t.res.vfPofs = 6#32 ∧ t.res.vfPlen.toNat = payload.length ∧
      ∀ k, (h : k < payload.length) → inByte t (t.res.vfPofs.toNat + k) = payload[k]

/-- R153: in a frame of `N` bytes that validates, changing the byte at any one offset makes every operation that validates
fail, with the error R153's table gives for the offset. -/
def Obligations.SingleByteMutationIsRejected : Prop :=
  ∀ (s t s' : State) (op : Instr) (k : Nat), exec .validate s = .next s' → s'.res.status = 0x0#4 →
    k < s.inLen.toNat → t.inLen = s.inLen → inByte t k ≠ inByte s k →
    (∀ i, i < s.inLen.toNat → i ≠ k → inByte t i = inByte s i) → validates op = true →
    ∃ t', exec op t = .next t' ∧ t'.res.status = mutationError s.inLen.toNat k

/-- R154: a strict prefix of a frame that validates never validates, whichever operation validates it: `TooShort` below 8 bytes, otherwise `BadEndMarker`,
or `LengthMismatch` when its last byte happens to be `0x68`. -/
def Obligations.StrictPrefixNeverValidates : Prop :=
  ∀ (s t s' : State) (op : Instr), exec .validate s = .next s' → s'.res.status = 0x0#4 →
    t.inLen.toNat < s.inLen.toNat → (∀ i, i < t.inLen.toNat → inByte t i = inByte s i) → validates op = true →
    ∃ t', exec op t = .next t' ∧ t'.res.status =
      if t.inLen.toNat < 8 then 0x1#4
      else if inByte t (t.inLen.toNat - 1) = 0x68#8 then 0x4#4 else 0x3#4

/-- R152, for every operation that validates: an input of more than 65539 bytes never validates (`LengthMismatch` if it passes the marker checks), and neither
does a valid frame with bytes appended (`BadEndMarker` if the last byte is not `0x68`, `LengthMismatch` otherwise). -/
def Obligations.OversizedInputNeverValidates : Prop :=
  (∀ (s : State) (op : Instr), 65539 < s.inLen.toNat → validates op = true →
    ∃ t, exec op s = .next t ∧ t.res.status ≠ 0x0#4 ∧
      (inByte s 0 = 0xAA#8 → inByte s 1 = 0x55#8 → inByte s (s.inLen.toNat - 1) = 0x68#8 → t.res.status = 0x4#4)) ∧
  (∀ (s t s' : State) (op : Instr), exec .validate s = .next s' → s'.res.status = 0x0#4 →
    s.inLen.toNat < t.inLen.toNat → (∀ i, i < s.inLen.toNat → inByte t i = inByte s i) → validates op = true →
    ∃ t', exec op t = .next t' ∧ t'.res.status =
      if inByte t (t.inLen.toNat - 1) = 0x68#8 then 0x4#4 else 0x3#4)

/-- R141, R151, for every operation that validates: below 8 bytes `TooShort(8, n)`, whatever the bytes; all zero and 8
bytes or more `BadStartMarker`; and any input at all gets an answer, which no byte outside the input has a part in. -/
def Obligations.ShortAndZeroInputsAreRejected : Prop :=
  ∀ (i : Instr) (s : State), validates i = true →
    (s.inLen.toNat < 8 → exec i s = .next { s with res := errorResults 0x1#4 8 s.inLen.toNat }) ∧
    (8 ≤ s.inLen.toNat → (∀ k, k < s.inLen.toNat → inByte s k = 0#8) →
      exec i s = .next { s with res := errorResults 0x2#4 0xAA55 0 }) ∧
    ∃ r, ∀ t : State, t.params = s.params → t.inLen = s.inLen →
      (∀ k, k < s.inLen.toNat → inByte t k = inByte s k) → exec i t = .next { t with res := r }

/-! ### Telemetry decoder -/

/-- R187: DECODE of fewer than `PAYLOAD_MIN` bytes ends in `PayloadTooShort(PAYLOAD_MIN, IN_LEN)`; otherwise the `TR_`
registers hold the twelve fields and every other result is 0. Nothing else changes. Its word is `0x00000005`. -/
def Obligations.DecodeGivesTheRecord : Prop :=
  decodeOp 0x00000005#32 = .instr .decode ∧
  ∀ s : State, exec .decode s = .next { s with
    res :=
      if s.inLen.toNat < s.params.layout.payloadMin then
        errorResults 0x7#4 s.params.layout.payloadMin s.inLen.toNat
      else withRecord s 0 (Results.zeroExcept 0x0#4) }

/-- R188: VDECODE leaves the validator's error, else `PayloadTooShort(PAYLOAD_MIN, n − 8)`, else the frame and its record;
after any error every `VF_` and `TR_` register is 0. Nothing else changes. Its word is `0x00000006`. -/
def Obligations.VdecodeValidatesThenDecodes : Prop :=
  decodeOp 0x00000006#32 = .instr .vdecode ∧
  ∀ s : State, exec .vdecode s = .next { s with res := vdecodeResults none s }

/-- R189: VDECODE.C is VDECODE with the command check. Its word is `0x0000ee07`. -/
def Obligations.VdecodeCValidatesThenDecodes : Prop :=
  ∀ (exp : Byte) (s : State),
    decodeOp (BitVec.ofNat 32 (exp.toNat * 256 + 7)) = .instr (.vdecodeC exp) ∧
    exec (.vdecodeC exp) s = .next { s with res := vdecodeResults (some exp) s }

/-- R188 against R149 and R187: VDECODE is VALIDATE and then DECODE of the payload the view names, loaded alone. Where
VALIDATE fails, VDECODE leaves the same results; where DECODE of the payload fails, VDECODE leaves DECODE's results (no
`VF_` register survives); where both succeed, it leaves the `VF_` registers of the one and the `TR_` registers of the
other. -/
def Obligations.VdecodeIsValidateThenDecodeOfTheView : Prop :=
  ∀ s u : State, ∃ v d x, exec .validate s = .next v ∧ exec .decode u = .next d ∧ exec .vdecode s = .next x ∧
    (v.res.status ≠ 0x0#4 → x.res = v.res) ∧
    (v.res.status = 0x0#4 → u.params = s.params → u.inLen = v.res.vfPlen →
      (∀ k, k < v.res.vfPlen.toNat → inByte u k = inByte s (v.res.vfPofs.toNat + k)) →
      (d.res.status ≠ 0x0#4 → x.res = d.res) ∧
      (d.res.status = 0x0#4 → x.res = { d.res with
        vfDev := v.res.vfDev, vfCmd := v.res.vfCmd, vfPofs := v.res.vfPofs, vfPlen := v.res.vfPlen }))

/-- R186: each decoded value is exact, in every operation that decodes: a scaled field's physical value, the register's
integer times the field's step, is the source's transform of the raw field as a rational number, biases included, with no
wrap and no rounding; a passthrough or bitfield register holds the raw field. -/
def Obligations.PhysicalValuesAreExact : Prop :=
  ∀ (i : Instr) (s : State) (f : TrField), reachesDecoder i s → s.params.layout.payloadMin ≤ payloadLength i s →
    ∃ t, exec i s = .next t ∧ t.res.status = 0x0#4 ∧
      f.physical t.res = f.sourceTransform (f.raw s.params.layout fun k => inByte s (payloadStart i + k)) ∧
      (f.step = none → f.value t.res = (f.raw s.params.layout fun k => inByte s (payloadStart i + k) : Int))

/-- R172: a payload longer than `PAYLOAD_MIN` is accepted, and its bytes outside the twelve fields (beyond them or in gaps
between them) do not affect the record: two payloads that agree inside the fields give the same record. -/
def Obligations.BytesOutsideTheFieldsAreIgnored : Prop :=
  ∀ (i : Instr) (s t : State), reachesDecoder i s → reachesDecoder i t → s.params.layout = t.params.layout →
    s.params.layout.payloadMin ≤ payloadLength i s → t.params.layout.payloadMin ≤ payloadLength i t →
    (∀ k, insideField s.params.layout k → inByte s (payloadStart i + k) = inByte t (payloadStart i + k)) →
    ∃ s' t', exec i s = .next s' ∧ exec i t = .next t' ∧ s'.res.status = 0x0#4 ∧ t'.res.status = 0x0#4 ∧
      ∀ f : TrField, f.value s'.res = f.value t'.res

/-- R185: the decoder rejects no field value: from `PAYLOAD_MIN` bytes on, an operation that reaches it ends in `OK`
whatever the bytes are, and the only error it can raise is `PayloadTooShort`. -/
def Obligations.DecoderRejectsNoFieldValue : Prop :=
  ∀ (i : Instr) (s : State), reachesDecoder i s →
    ∃ t, exec i s = .next t ∧ (t.res.status = 0x0#4 ∨ t.res.status = 0x7#4) ∧
      (s.params.layout.payloadMin ≤ payloadLength i s → t.res.status = 0x0#4)

/-- The round trip under `LAYOUT_REF` (R79, R186): DECODE of a payload written field by field recovers every field
exactly. -/
def Obligations.DecodeRecoversEncodedFields : Prop :=
  ∀ (s : State) (vtotal current vcellMax vcellMin soc tempMax tempMin : BitVec 16) (relay din : Byte)
    (bstatus fault power : BitVec 16), s.params.layout = LAYOUT_REF →
    holdsInput s (payloadOf vtotal current vcellMax vcellMin soc tempMax tempMin relay din bstatus fault power) →
    ∃ t, exec .decode s = .next t ∧ t.res.status = 0x0#4 ∧ t.res.trVtotal = vtotal ∧
      t.res.trCurrent.toInt = (current.toNat : Int) - 16000 ∧ t.res.trVcellMax = vcellMax ∧
      t.res.trVcellMin = vcellMin ∧ t.res.trSoc = soc ∧ t.res.trTempMax.toInt = (tempMax.toNat : Int) - 400 ∧
      t.res.trTempMin.toInt = (tempMin.toNat : Int) - 400 ∧ t.res.trRelay = relay ∧ t.res.trDin = din ∧
      t.res.trBstatus = bstatus ∧ t.res.trFault = fault ∧ t.res.trPower = power

/-- R52: bit 0 is the least significant bit, so flag `k` of a byte is bit `k` of its value, and `0b00000101` decodes to
the flags R52 lists. -/
def Obligations.FlagsAreBitsLeastSignificantFirst : Prop :=
  (∀ (b : Byte) (k : Nat), k < 8 → (flags b)[k]? = some (decide (b.toNat / 2 ^ k % 2 = 1))) ∧
  flags 0b00000101#8 = [true, false, true, false, false, false, false, false]

/-! ### The view and the assembler -/

/-- R63, R244: the view of a frame any operation validated names indices of `IN`, not bytes: after HOST writes `IN`, the view is
unchanged and names the new byte, and no result register goes stale. -/
def Obligations.ViewNamesTheBytesOfInAsTheyAreNow : Prop :=
  ∀ (op : Instr) (s t : State) (i : Nat) (b : Byte), validates op = true → exec op s = .next t →
    t.res.status = 0x0#4 → i < s.params.rawCap →
    ∃ u, perform (.writeIN i b) t = .next u ∧ u.res = t.res ∧
      t.res.vfPofs.toNat + t.res.vfPlen.toNat + 2 = s.inLen.toNat ∧
      ∀ k, k < t.res.vfPlen.toNat →
        inByte u (u.res.vfPofs.toNat + k) = if t.res.vfPofs.toNat + k = i then b else inByte s (t.res.vfPofs.toNat + k)

/-- R83: the pseudo-instructions expand to BUILD, VALIDATE.C and VDECODE.C with `CMD_INFO` when it has a value, and do not
assemble when it is open. -/
def Obligations.PseudoInstructionsExpandWithCmdInfo : Prop :=
  ∀ (c dev : Byte),
    assemble (some c) ⟨.buildInfo, [dev.toNat]⟩ = assemble none ⟨.build, [dev.toNat, c.toNat]⟩ ∧
    assemble (some c) ⟨.validateInfo, []⟩ = assemble none ⟨.validateC, [c.toNat]⟩ ∧
    assemble (some c) ⟨.readInfo, []⟩ = assemble none ⟨.vdecodeC, [c.toNat]⟩ ∧
    assemble none ⟨.buildInfo, [dev.toNat]⟩ = none ∧ assemble none ⟨.validateInfo, []⟩ = none ∧
    assemble none ⟨.readInfo, []⟩ = none

/-- R82: `BUILD dev, cmd` and `VALIDATE.C exp` assemble exactly when their operands are from 0 to 255, and then to the word
R71 gives. -/
def Obligations.OperandsOutsideAByteDoNotAssemble : Prop :=
  ∀ (cmdInfo : Option Byte) (a b : Nat),
    (assemble cmdInfo ⟨.build, [a, b]⟩).map encode =
      (if a ≤ 255 ∧ b ≤ 255 then some (BitVec.ofNat 32 (a * 65536 + b * 256 + 2)) else none) ∧
    (assemble cmdInfo ⟨.validateC, [a]⟩).map encode =
      (if a ≤ 255 then some (BitVec.ofNat 32 (a * 256 + 4)) else none) ∧
    (assemble cmdInfo ⟨.vdecodeC, [a]⟩).map encode =
      (if a ≤ 255 then some (BitVec.ofNat 32 (a * 256 + 7)) else none)
end

