-- ==== Sys2Proof/Laws/Decode.lean ====
section
/-! SUPPORT. The fields of an encoded word, and a word from its fields. -/

namespace Sys2Proof

theorem toNat_append_add {m n : Nat} (x : BitVec m) (y : BitVec n) : (x ++ y).toNat = x.toNat * 2 ^ n + y.toNat := by
  rw [BitVec.toNat_append, ← Nat.shiftLeft_add_eq_or_of_lt y.isLt, Nat.shiftLeft_eq]

/-- The number a word's five fields make (R70). -/
theorem fields_toNat (r a b : Byte) (z op : BitVec 4) :
    (r ++ a ++ b ++ z ++ op : Word).toNat =
      (((r.toNat * 256 + a.toNat) * 256 + b.toNat) * 16 + z.toNat) * 16 + op.toNat := by
  simp only [toNat_append_add]
  omega

theorem opField_append (r a b : Byte) (z op : BitVec 4) : opField (r ++ a ++ b ++ z ++ op : Word) = op := by
  apply BitVec.eq_of_toNat_eq
  rw [opField, BitVec.extractLsb'_toNat, fields_toNat, Nat.shiftRight_eq_div_pow]
  have := op.isLt
  omega

theorem rsv0Field_append (r a b : Byte) (z op : BitVec 4) : rsv0Field (r ++ a ++ b ++ z ++ op : Word) = z := by
  apply BitVec.eq_of_toNat_eq
  rw [rsv0Field, BitVec.extractLsb'_toNat, fields_toNat, Nat.shiftRight_eq_div_pow]
  have := op.isLt
  have := z.isLt
  omega

theorem bField_append (r a b : Byte) (z op : BitVec 4) : bField (r ++ a ++ b ++ z ++ op : Word) = b := by
  apply BitVec.eq_of_toNat_eq
  rw [bField, BitVec.extractLsb'_toNat, fields_toNat, Nat.shiftRight_eq_div_pow]
  have := op.isLt
  have := z.isLt
  have := b.isLt
  omega

theorem aField_append (r a b : Byte) (z op : BitVec 4) : aField (r ++ a ++ b ++ z ++ op : Word) = a := by
  apply BitVec.eq_of_toNat_eq
  rw [aField, BitVec.extractLsb'_toNat, fields_toNat, Nat.shiftRight_eq_div_pow]
  have := op.isLt
  have := z.isLt
  have := b.isLt
  have := a.isLt
  omega

theorem rsv1Field_append (r a b : Byte) (z op : BitVec 4) : rsv1Field (r ++ a ++ b ++ z ++ op : Word) = r := by
  apply BitVec.eq_of_toNat_eq
  rw [rsv1Field, BitVec.extractLsb'_toNat, fields_toNat, Nat.shiftRight_eq_div_pow]
  have := op.isLt
  have := z.isLt
  have := b.isLt
  have := a.isLt
  have := r.isLt
  omega

/-- A word is its five fields put together. -/
theorem word_eq_fields (w : Word) : rsv1Field w ++ aField w ++ bField w ++ rsv0Field w ++ opField w = w := by
  apply BitVec.eq_of_toNat_eq
  have h := w.isLt
  rw [fields_toNat]
  simp only [rsv1Field, aField, bField, rsv0Field, opField, BitVec.extractLsb'_toNat, Nat.shiftRight_eq_div_pow]
  omega

/-! Hence the fields of an encoded instruction (R71). -/

@[simp] theorem opField_encode (i : Instr) : opField (encode i) = i.opcode := opField_append _ _ _ _ _
@[simp] theorem rsv0Field_encode (i : Instr) : rsv0Field (encode i) = 0#4 := rsv0Field_append _ _ _ _ _
@[simp] theorem bField_encode (i : Instr) : bField (encode i) = i.operandB := bField_append _ _ _ _ _
@[simp] theorem aField_encode (i : Instr) : aField (encode i) = i.operandA := aField_append _ _ _ _ _
@[simp] theorem rsv1Field_encode (i : Instr) : rsv1Field (encode i) = 0#8 := rsv1Field_append _ _ _ _ _

/-! The fields of any word as numbers. -/

theorem opField_toNat (w : Word) : (opField w).toNat = w.toNat % 16 := by
  simp [opField, BitVec.extractLsb'_toNat]

theorem rsv0Field_toNat (w : Word) : (rsv0Field w).toNat = w.toNat / 16 % 16 := by
  simp [rsv0Field, BitVec.extractLsb'_toNat, Nat.shiftRight_eq_div_pow]

theorem bField_toNat (w : Word) : (bField w).toNat = w.toNat / 256 % 256 := by
  simp [bField, BitVec.extractLsb'_toNat, Nat.shiftRight_eq_div_pow]

theorem aField_toNat (w : Word) : (aField w).toNat = w.toNat / 65536 % 256 := by
  simp [aField, BitVec.extractLsb'_toNat, Nat.shiftRight_eq_div_pow]

theorem rsv1Field_toNat (w : Word) : (rsv1Field w).toNat = w.toNat / 16777216 := by
  have := w.isLt
  simp only [rsv1Field, BitVec.extractLsb'_toNat, Nat.shiftRight_eq_div_pow]
  omega

/-- All that a word which decodes to an instruction can be: its five fields are that instruction's. -/
theorem decodeOp_fields {w : Word} {i : Instr} (h : decodeOp w = .instr i) :
    rsv1Field w = 0#8 ∧ rsv0Field w = 0#4 ∧ opField w = i.opcode ∧ aField w = i.operandA ∧ bField w = i.operandB := by
  unfold decodeOp at h
  split at h
  · cases h
  · rename_i hr
    split at h
    · cases h
    · rename_i hu
      simp only [Bool.not_eq_true', Bool.and_eq_true, beq_iff_eq, Bool.not_eq_false] at hr
      refine ⟨hr.1, hr.2, ?_⟩
      unfold unusedOperandSet at hu
      split at h <;> rename_i hop <;> simp only [hop] at hu <;> cases h <;> simp at hu <;>
        exact ⟨BitVec.eq_of_toNat_eq (by rw [hop]; rfl), by simp [Instr.operandA, hu], by simp [Instr.operandB, hu]⟩

/-- A word decodes to an instruction or is illegal. -/
theorem decodeOp_cases (w : Word) : (∃ i, decodeOp w = .instr i) ∨ ∃ why, decodeOp w = .illegal why := by
  cases decodeOp w with
  | instr i => exact .inl ⟨i, rfl⟩
  | illegal why => exact .inr ⟨why, rfl⟩

end Sys2Proof
end

