-- ==== Sys2Proof/Laws/State.lean ====
section
/-! SUPPORT. One lemma per field per update of State, and what the named operations over it leave alone. -/

namespace Sys2Proof.Machine

variable (s : State)

@[simp] theorem setOpword_params (w : Word) : (s.setOpword w).params = s.params := rfl
@[simp] theorem setOpword_opword (w : Word) : (s.setOpword w).opword = w := rfl
@[simp] theorem setOpword_inBuf (w : Word) : (s.setOpword w).inBuf = s.inBuf := rfl
@[simp] theorem setOpword_inLen (w : Word) : (s.setOpword w).inLen = s.inLen := rfl
@[simp] theorem setOpword_res (w : Word) : (s.setOpword w).res = s.res := rfl
@[simp] theorem setOpword_inDraw (w : Word) : (s.setOpword w).inDraw = s.inDraw := rfl
@[simp] theorem setOpword_script (w : Word) : (s.setOpword w).script = s.script := rfl
@[simp] theorem setOpword_reads (w : Word) : (s.setOpword w).reads = s.reads := rfl

@[simp] theorem setInBuf_params (m : Memory) : (s.setInBuf m).params = s.params := rfl
@[simp] theorem setInBuf_opword (m : Memory) : (s.setInBuf m).opword = s.opword := rfl
@[simp] theorem setInBuf_inBuf (m : Memory) : (s.setInBuf m).inBuf = m := rfl
@[simp] theorem setInBuf_inLen (m : Memory) : (s.setInBuf m).inLen = s.inLen := rfl
@[simp] theorem setInBuf_res (m : Memory) : (s.setInBuf m).res = s.res := rfl
@[simp] theorem setInBuf_inDraw (m : Memory) : (s.setInBuf m).inDraw = s.inDraw := rfl
@[simp] theorem setInBuf_script (m : Memory) : (s.setInBuf m).script = s.script := rfl
@[simp] theorem setInBuf_reads (m : Memory) : (s.setInBuf m).reads = s.reads := rfl

@[simp] theorem setInLen_params (n : Word) : (s.setInLen n).params = s.params := rfl
@[simp] theorem setInLen_opword (n : Word) : (s.setInLen n).opword = s.opword := rfl
@[simp] theorem setInLen_inBuf (n : Word) : (s.setInLen n).inBuf = s.inBuf := rfl
@[simp] theorem setInLen_inLen (n : Word) : (s.setInLen n).inLen = n := rfl
@[simp] theorem setInLen_res (n : Word) : (s.setInLen n).res = s.res := rfl
@[simp] theorem setInLen_inDraw (n : Word) : (s.setInLen n).inDraw = s.inDraw := rfl
@[simp] theorem setInLen_script (n : Word) : (s.setInLen n).script = s.script := rfl
@[simp] theorem setInLen_reads (n : Word) : (s.setInLen n).reads = s.reads := rfl

@[simp] theorem setRes_params (r : Results) : (s.setRes r).params = s.params := rfl
@[simp] theorem setRes_opword (r : Results) : (s.setRes r).opword = s.opword := rfl
@[simp] theorem setRes_inBuf (r : Results) : (s.setRes r).inBuf = s.inBuf := rfl
@[simp] theorem setRes_inLen (r : Results) : (s.setRes r).inLen = s.inLen := rfl
@[simp] theorem setRes_res (r : Results) : (s.setRes r).res = r := rfl
@[simp] theorem setRes_inDraw (r : Results) : (s.setRes r).inDraw = s.inDraw := rfl
@[simp] theorem setRes_script (r : Results) : (s.setRes r).script = s.script := rfl
@[simp] theorem setRes_reads (r : Results) : (s.setRes r).reads = s.reads := rfl
@[simp] theorem setRes_setRes (r q : Results) : (s.setRes r).setRes q = s.setRes q := rfl

@[simp] theorem setInDraw_params (d : Nat) : (s.setInDraw d).params = s.params := rfl
@[simp] theorem setInDraw_opword (d : Nat) : (s.setInDraw d).opword = s.opword := rfl
@[simp] theorem setInDraw_inBuf (d : Nat) : (s.setInDraw d).inBuf = s.inBuf := rfl
@[simp] theorem setInDraw_inLen (d : Nat) : (s.setInDraw d).inLen = s.inLen := rfl
@[simp] theorem setInDraw_res (d : Nat) : (s.setInDraw d).res = s.res := rfl
@[simp] theorem setInDraw_inDraw (d : Nat) : (s.setInDraw d).inDraw = d := rfl
@[simp] theorem setInDraw_script (d : Nat) : (s.setInDraw d).script = s.script := rfl
@[simp] theorem setInDraw_reads (d : Nat) : (s.setInDraw d).reads = s.reads := rfl

@[simp] theorem setScript_params (l : List HostAction) : (s.setScript l).params = s.params := rfl
@[simp] theorem setScript_opword (l : List HostAction) : (s.setScript l).opword = s.opword := rfl
@[simp] theorem setScript_inBuf (l : List HostAction) : (s.setScript l).inBuf = s.inBuf := rfl
@[simp] theorem setScript_inLen (l : List HostAction) : (s.setScript l).inLen = s.inLen := rfl
@[simp] theorem setScript_res (l : List HostAction) : (s.setScript l).res = s.res := rfl
@[simp] theorem setScript_inDraw (l : List HostAction) : (s.setScript l).inDraw = s.inDraw := rfl
@[simp] theorem setScript_script (l : List HostAction) : (s.setScript l).script = l := rfl
@[simp] theorem setScript_reads (l : List HostAction) : (s.setScript l).reads = s.reads := rfl
@[simp] theorem setScript_setScript (l m : List HostAction) : (s.setScript l).setScript m = s.setScript m := rfl
@[simp] theorem setScript_same : s.setScript s.script = s := rfl

@[simp] theorem pushRead_params (r : ReadRecord) : (s.pushRead r).params = s.params := rfl
@[simp] theorem pushRead_opword (r : ReadRecord) : (s.pushRead r).opword = s.opword := rfl
@[simp] theorem pushRead_inBuf (r : ReadRecord) : (s.pushRead r).inBuf = s.inBuf := rfl
@[simp] theorem pushRead_inLen (r : ReadRecord) : (s.pushRead r).inLen = s.inLen := rfl
@[simp] theorem pushRead_res (r : ReadRecord) : (s.pushRead r).res = s.res := rfl
@[simp] theorem pushRead_inDraw (r : ReadRecord) : (s.pushRead r).inDraw = s.inDraw := rfl
@[simp] theorem pushRead_script (r : ReadRecord) : (s.pushRead r).script = s.script := rfl
@[simp] theorem pushRead_reads (r : ReadRecord) : (s.pushRead r).reads = r :: s.reads := rfl

@[simp] theorem resetBlock_params : (resetBlock s).params = s.params := rfl
@[simp] theorem resetBlock_opword : (resetBlock s).opword = 0#32 := rfl
@[simp] theorem resetBlock_inBuf : (resetBlock s).inBuf = [] := rfl
@[simp] theorem resetBlock_inLen : (resetBlock s).inLen = 0#32 := rfl
@[simp] theorem resetBlock_res : (resetBlock s).res = Results.zeroExcept STATUS_NONE := rfl
@[simp] theorem resetBlock_inDraw : (resetBlock s).inDraw = s.inDraw + 1 := rfl
@[simp] theorem resetBlock_script : (resetBlock s).script = s.script := rfl
@[simp] theorem resetBlock_reads : (resetBlock s).reads = s.reads := rfl

/-! What reading `IN` depends on. -/

@[simp] theorem inByte_setOpword (w : Word) (i : Nat) : inByte (s.setOpword w) i = inByte s i := rfl
@[simp] theorem inByte_setInLen (n : Word) (i : Nat) : inByte (s.setInLen n) i = inByte s i := rfl
@[simp] theorem inByte_setRes (r : Results) (i : Nat) : inByte (s.setRes r) i = inByte s i := rfl
@[simp] theorem inByte_setScript (l : List HostAction) (i : Nat) : inByte (s.setScript l) i = inByte s i := rfl
@[simp] theorem inByte_pushRead (r : ReadRecord) (i : Nat) : inByte (s.pushRead r) i = inByte s i := rfl

end Sys2Proof.Machine
end

