-- ==== Sys2Proof/Laws/Operands.lean ====
section
/-! SUPPORT. Sums, checksums, big-endian fields and slices. -/

namespace Sys2Proof.Machine

@[simp] theorem byteSum_nil : byteSum [] = 0 := rfl
@[simp] theorem byteSum_cons (b : Byte) (l : List Byte) : byteSum (b :: l) = b.toNat + byteSum l := rfl
@[simp] theorem byteSum_append (l m : List Byte) : byteSum (l ++ m) = byteSum l + byteSum m := by
  simp [byteSum]

/-- The checksum as a number (R100). -/
theorem cksum8_toNat (l : List Byte) : (cksum8 l).toNat = byteSum l % 256 := by
  simp only [cksum8, BitVec.toNat_ofNat]
  omega

/-- A 16-bit field is below 65536 (R51: "No field is wider than 16 bits"). -/
theorem be16_lt (rd : Nat → Byte) (o : Nat) : be16 rd o < 65536 := by
  have h1 := (rd o).isLt
  have h2 := (rd (o + 1)).isLt
  simp only [be16]
  omega

theorem be16_congr {rd rd' : Nat → Byte} {o : Nat} (h0 : rd o = rd' o) (h1 : rd (o + 1) = rd' (o + 1)) :
    be16 rd o = be16 rd' o := by simp [be16, h0, h1]

@[simp] theorem slice_length (rd : Nat → Byte) (i j : Nat) : (slice rd i j).length = j - i := by simp [slice]

/-- The sum of a slice from index 0, as a sum over indices. -/
theorem byteSum_slice (rd : Nat → Byte) (j : Nat) :
    byteSum (slice rd 0 j) = ∑ k ∈ Finset.range j, (rd k).toNat := by
  induction j with
  | zero => simp [slice]
  | succ j ih =>
    rw [Finset.sum_range_succ, ← ih]
    simp [slice, List.range_succ]

theorem slice_congr {rd rd' : Nat → Byte} {i j : Nat} (h : ∀ k, i ≤ k → k < j → rd k = rd' k) :
    slice rd i j = slice rd' i j := by
  simp only [slice]
  apply List.map_congr_left
  intro k hk
  have := List.mem_range.mp hk
  exact h (i + k) (by omega) (by omega)

/-- Every field of a layout ends at or before `PAYLOAD_MIN` (R80, R171). -/
theorem field_end_le_payloadMin {L : Layout} {f : Nat × Nat} (h : f ∈ L.fields) : f.1 + f.2 ≤ L.payloadMin := by
  have key : ∀ (l : List Nat) (x : Nat), x ∈ l → x ≤ l.foldr max 0 := by
    intro l
    induction l with
    | nil => intro x hx; cases hx
    | cons a rest ih =>
      intro x hx
      rcases List.mem_cons.mp hx with hx | hx
      · rw [hx]; exact Nat.le_max_left _ _
      · exact Nat.le_trans (ih x hx) (Nat.le_max_right _ _)
  exact key _ _ (List.mem_map.mpr ⟨f, h, rfl⟩)

/-- What `IN` reads as after `IN[i] <- b`. -/
theorem inByte_write (s : State) (i j : Nat) (b : Byte) :
    inByte (s.setInBuf (s.inBuf.write i b)) j = if j = i then b else inByte s j := by
  by_cases h : j = i
  · subst h
    simp [inByte, Memory.lookup_write_same]
  · simp [inByte, h, Memory.lookup_write_other h]

end Sys2Proof.Machine
end

