-- ==== Sys2Proof/Laws/Ops.lean ====
section
/-! SUPPORT. Each shared operation said once: it replaces the result state and nothing else, and with what. -/

namespace Sys2Proof.Machine

theorem clearResults_eq (s : State) : clearResults s = s.setRes (Results.zeroExcept s.res.status) := rfl

/-- All that `raise` can do: `STATUS`, `ERR_X`, `ERR_Y` get the report, every other result register is 0. -/
theorem raise_eq (r : Report) (s : State) :
    raise r s = s.setRes { Results.zeroExcept r.kind.code with
      errX := BitVec.ofNat 32 r.x, errY := BitVec.ofNat 32 r.y } := rfl

theorem succeed_eq (s : State) : succeed s = s.setRes { s.res with status := STATUS_OK } := rfl

theorem writeCk_eq (v : Byte) (s : State) : writeCk v s = s.setRes { s.res with ck := v } := rfl

theorem writeReq_eq (f : Vector Byte 8) (s : State) : writeReq f s = s.setRes { s.res with req := f } := rfl

/-- CKSUM replaces the result state by `CK` and `OK`, all else 0. -/
theorem succeed_writeCk_clear (v : Byte) (s : State) :
    succeed (writeCk v (clearResults s)) = s.setRes { Results.zeroExcept STATUS_OK with ck := v } := rfl

/-- BUILD replaces the result state by `REQ` and `OK`, all else 0. -/
theorem succeed_writeReq_clear (f : Vector Byte 8) (s : State) :
    succeed (writeReq f (clearResults s)) = s.setRes { Results.zeroExcept STATUS_OK with req := f } := rfl

theorem finish_err {α : Type} (r : Report) (write : α → State → State) (s : State) :
    finish (.err r) write s = raise r s := rfl

theorem finish_ok_frame (v : ValidatedFrame) (s : State) :
    finish (.ok v) writeFrame s = s.setRes { Results.zeroExcept STATUS_OK with
      vfDev := v.dev, vfCmd := v.cmd, vfPofs := BitVec.ofNat 32 v.pofs, vfPlen := BitVec.ofNat 32 v.plen } := rfl

theorem finish_ok_record (t : TelemetryRecord) (s : State) :
    finish (.ok t) writeRecord s = s.setRes { Results.zeroExcept STATUS_OK with
      trVtotal := BitVec.ofNat 16 t.vtotal, trCurrent := BitVec.ofInt 32 t.current,
      trVcellMax := BitVec.ofNat 16 t.vcellMax, trVcellMin := BitVec.ofNat 16 t.vcellMin,
      trSoc := BitVec.ofNat 16 t.soc, trTempMax := BitVec.ofInt 32 t.tempMax, trTempMin := BitVec.ofInt 32 t.tempMin,
      trRelay := t.relay, trDin := t.din, trBstatus := BitVec.ofNat 16 t.bstatus,
      trFault := BitVec.ofNat 16 t.fault, trPower := BitVec.ofNat 16 t.power } := rfl

theorem finish_ok_frameAndRecord (v : ValidatedFrame) (t : TelemetryRecord) (s : State) :
    finish (.ok (v, t)) writeFrameAndRecord s = s.setRes { Results.zeroExcept STATUS_OK with
      vfDev := v.dev, vfCmd := v.cmd, vfPofs := BitVec.ofNat 32 v.pofs, vfPlen := BitVec.ofNat 32 v.plen,
      trVtotal := BitVec.ofNat 16 t.vtotal, trCurrent := BitVec.ofInt 32 t.current,
      trVcellMax := BitVec.ofNat 16 t.vcellMax, trVcellMin := BitVec.ofNat 16 t.vcellMin,
      trSoc := BitVec.ofNat 16 t.soc, trTempMax := BitVec.ofInt 32 t.tempMax, trTempMin := BitVec.ofInt 32 t.tempMin,
      trRelay := t.relay, trDin := t.din, trBstatus := BitVec.ofNat 16 t.bstatus,
      trFault := BitVec.ofNat 16 t.fault, trPower := BitVec.ofNat 16 t.power } := rfl

/-- What an operation does to everything but the result state: nothing, whichever way it ends. -/
theorem finish_eq_setRes {α : Type} (r : Res α) (write : α → State → State)
    (hw : ∀ v u, ∃ q, write v u = u.setRes q) (s : State) : ∃ q, finish r write s = s.setRes q := by
  cases r with
  | err e => exact ⟨_, raise_eq e s⟩
  | ok v =>
    obtain ⟨q, hq⟩ := hw v (clearResults s)
    exact ⟨{ q with status := STATUS_OK }, by
      show succeed (write v (clearResults s)) = _
      rw [hq]
      rfl⟩

theorem writeFrame_setRes (v : ValidatedFrame) (u : State) : ∃ q, writeFrame v u = u.setRes q := ⟨_, rfl⟩

theorem writeRecord_setRes (t : TelemetryRecord) (u : State) : ∃ q, writeRecord t u = u.setRes q := ⟨_, rfl⟩

theorem writeFrameAndRecord_setRes (vt : ValidatedFrame × TelemetryRecord) (u : State) :
    ∃ q, writeFrameAndRecord vt u = u.setRes q := ⟨_, rfl⟩

/-- A step, case by case of HOST's next action. -/
theorem step_nil {s : State} (h : s.script = []) : step s = .next s := by simp [step, h, idle]

theorem step_cons {s : State} {a : HostAction} {rest : List HostAction} (h : s.script = a :: rest) :
    step s = perform a (s.setScript rest) := by simp [step, h]

theorem issue_legal {w : Word} {i : Instr} (h : decodeOp w = .instr i) (s : State) :
    issue w s = exec i (s.setOpword w) := by simp [issue, h]

theorem issue_illegal {w : Word} {why : IllegalWord} (h : decodeOp w = .illegal why) (s : State) :
    issue w s = .next (raise ⟨.illegalOp, w.toNat, 0⟩ (s.setOpword w)) := by simp [issue, h]

/-- All that an instruction can do: it answers a next state, which differs in the result state only. -/
theorem exec_eq_setRes (i : Instr) (s : State) : ∃ q, exec i s = .next (s.setRes q) := by
  cases i with
  | cksum => exact ⟨_, by rw [exec, execCksum, succeed_writeCk_clear]⟩
  | build dev cmd => exact ⟨_, by rw [exec, execBuild, succeed_writeReq_clear]⟩
  | validate =>
    obtain ⟨q, h⟩ := finish_eq_setRes (validateFrame (inByte s) (inputLen s) none) writeFrame writeFrame_setRes s
    exact ⟨q, by rw [exec, execValidate, h]⟩
  | validateC exp =>
    obtain ⟨q, h⟩ := finish_eq_setRes (validateFrame (inByte s) (inputLen s) (some exp)) writeFrame writeFrame_setRes s
    exact ⟨q, by rw [exec, execValidateC, h]⟩
  | decode =>
    obtain ⟨q, h⟩ := finish_eq_setRes (decodePayload s.params.layout (inByte s) (inputLen s)) writeRecord
      writeRecord_setRes s
    exact ⟨q, by rw [exec, execDecode, h]⟩
  | vdecode =>
    obtain ⟨q, h⟩ := finish_eq_setRes (validateDecode s.params.layout (inByte s) (inputLen s) none) writeFrameAndRecord
      writeFrameAndRecord_setRes s
    exact ⟨q, by rw [exec, execVdecode, h]⟩
  | vdecodeC exp =>
    obtain ⟨q, h⟩ := finish_eq_setRes (validateDecode s.params.layout (inByte s) (inputLen s) (some exp))
      writeFrameAndRecord writeFrameAndRecord_setRes s
    exact ⟨q, by rw [exec, execVdecodeC, h]⟩

/-- All that an issue can do: `OPWORD` gets the word, the result state changes, nothing else. -/
theorem issue_eq_setRes (w : Word) (s : State) : ∃ q, issue w s = .next ((s.setOpword w).setRes q) := by
  rcases decodeOp_cases w with ⟨i, h⟩ | ⟨why, h⟩
  · rw [issue_legal h]
    exact exec_eq_setRes i _
  · exact ⟨_, by rw [issue_illegal h, raise_eq]⟩

/-- The HOST actions that are not an issue, when they have a step. -/
theorem perform_writeIN {s : State} {i : Nat} (h : i < s.params.rawCap) (b : Byte) :
    perform (.writeIN i b) s = .next (s.setInBuf (s.inBuf.write i b)) := by simp [perform, writeIN, h]

theorem perform_writeLEN {s : State} {m : Word} (h : m.toNat ≤ s.params.rawCap) :
    perform (.writeLEN m) s = .next (s.setInLen m) := by simp [perform, writeLEN, h]

theorem perform_read {s : State} {r : HostReg} (h : readable r s = true) :
    perform (.read r) s = .next (s.pushRead ⟨r, readReg r s⟩) := by simp [perform, hostRead, h]

theorem perform_reset (s : State) : perform .reset s = .next (resetBlock s) := rfl

theorem perform_issue (w : Word) (s : State) : perform (.issue w) s = issue w s := rfl

end Sys2Proof.Machine
end

