-- ==== Sys2Proof/Laws/PerInstr.lean ====
section
/-! SUPPORT. The family of facts made per instruction: the word an instruction encodes to has its opcode, its operands and
zero reserved fields (spec R70, R71). -/

namespace Sys2Proof.Laws.EncodedFields

/-- The five fields of an instruction's word. -/
def Statement (i : Instr) : Prop :=
  opField (encode i) = i.opcode ∧ rsv0Field (encode i) = 0#4 ∧ bField (encode i) = i.operandB ∧
  aField (encode i) = i.operandA ∧ rsv1Field (encode i) = 0#8

theorem of_encode (i : Instr) : Statement i := by simp [Statement]

theorem cksum : Statement .cksum := of_encode _
theorem build (dev cmd : Byte) : Statement (.build dev cmd) := of_encode _
theorem validate : Statement .validate := of_encode _
theorem validateC (exp : Byte) : Statement (.validateC exp) := of_encode _
theorem decode : Statement .decode := of_encode _
theorem vdecode : Statement .vdecode := of_encode _
theorem vdecodeC (exp : Byte) : Statement (.vdecodeC exp) := of_encode _

end Sys2Proof.Laws.EncodedFields
end

