-- ==== Sys2Proof/Tests/Slice0.lean ====
section
/-! SUPPORT. The model's own tests. Expected values are the spec's: the words of R71, the vectors V1 to V7 of
95_test_vectors.md (named in each test), and hand calculation from the rules cited. Last, the witnesses: for every statement
with hypotheses a concrete state and operands that meet them all together. -/

namespace Sys2Proof.Tests

open Sys2Proof.Machine Sys2Proof.Claim

/-! ### Helpers -/

/-- The reset state with `l` loaded: `IN[0..k) = l`, `IN_LEN = k`. -/
def loaded (l : List Byte) : State :=
  { State.reset with inBuf := l.zipIdx.map fun p => (p.2, p.1), inLen := BitVec.ofNat 32 l.length }

/-- Does the outcome answer a next state with the property? -/
def nextHas (o : Host.Outcome State Fault Refusal) (p : State → Bool) : Bool :=
  match o with
  | .next t => p t
  | .fault _ => false
  | .refused _ => false

/-- `PL` of 95_test_vectors.md: the 22-byte payload. -/
def PL : List Byte :=
  [0x01#8, 0x8F#8, 0x3E#8, 0xE4#8, 0x0D#8, 0x16#8, 0x0C#8, 0xE4#8, 0x03#8, 0x6B#8, 0x01#8] ++
  [0xB8#8, 0x01#8, 0x90#8, 0x05#8, 0x80#8, 0x00#8, 0x02#8, 0x00#8, 0x00#8, 0x0F#8, 0xA0#8]

/-- `FR` of 95_test_vectors.md: the 30-byte response frame. -/
def FR : List Byte := [0xAA#8, 0x55#8, 0x00#8, 0x1A#8, 0x01#8, 0x03#8] ++ PL ++ [0xD0#8, 0x68#8]

/-- The minimal frame of V3.9. -/
def minimalFrame : List Byte := [0xAA#8, 0x55#8, 0x00#8, 0x04#8, 0x01#8, 0x03#8, 0x07#8, 0x68#8]

/-- V4.7's payload. -/
def PL7 : List Byte :=
  [0xFF#8, 0xFF#8, 0x3E#8, 0x1C#8, 0x00#8, 0x00#8, 0xFF#8, 0xFF#8, 0x03#8, 0xE8#8, 0x00#8] ++
  [0x00#8, 0xFF#8, 0xFF#8, 0x00#8, 0xFF#8, 0xAB#8, 0xCD#8, 0x12#8, 0x34#8, 0x00#8, 0x00#8]

/-- V4.7's record, on top of other results. -/
def record7 (r : Results) : Results :=
  { r with
    trVtotal := 65535#16, trCurrent := 0xFFFFFF9C#32, trVcellMax := 0#16, trVcellMin := 65535#16, trSoc := 1000#16,
    trTempMax := 0xFFFFFE70#32, trTempMin := 65135#32, trRelay := 0x00#8, trDin := 0xFF#8, trBstatus := 0xABCD#16,
    trFault := 0x1234#16, trPower := 0#16 }

/-- Only `STATUS` and the error details. -/
def onlyError (c : BitVec 4) (x y : Word) : Results := { Results.zeroExcept c with errX := x, errY := y }

/-! ### Decoding: words written out from R71, and illegal ones from V6 -/

theorem test_decode_cksum : decodeOp 0b00000000000000000000000000000001#32 = .instr .cksum := by decide
theorem test_decode_build : decodeOp 0b00000000000000010000001100000010#32 = .instr (.build 1#8 3#8) := by decide
theorem test_decode_validate : decodeOp 0b00000000000000000000000000000011#32 = .instr .validate := by decide
theorem test_decode_validateC : decodeOp 0b00000000000000001111111100000100#32 = .instr (.validateC 255#8) := by decide
theorem test_decode_decode : decodeOp 0b00000000000000000000000000000101#32 = .instr .decode := by decide
theorem test_decode_vdecode : decodeOp 0b00000000000000000000000000000110#32 = .instr .vdecode := by decide
theorem test_decode_vdecodeC : decodeOp 0b00000000000000000000010000000111#32 = .instr (.vdecodeC 4#8) := by decide
theorem test_decode_build_operand_order : decodeTableWord 32 0x00FE0102 = some (.build 0xFE#8 1#8) := by decide

theorem test_decode_illegal_opcode :                                                     -- V6.1, V6.2, V6.3
    decodeOp 0x00000000#32 = .illegal .opcodeUnassigned ∧ decodeOp 0x00000008#32 = .illegal .opcodeUnassigned ∧
    decodeOp 0x0000000F#32 = .illegal .opcodeUnassigned := by decide
theorem test_decode_illegal_reserved :                                                   -- V6.4, V6.5, V6.12
    decodeOp 0x00000011#32 = .illegal .reservedNotZero ∧ decodeOp 0x01000001#32 = .illegal .reservedNotZero ∧
    decodeOp 0x80010302#32 = .illegal .reservedNotZero := by decide
theorem test_decode_illegal_operand :                                                    -- V6.6 to V6.11
    ([0x00000101#32, 0x00010003#32, 0x00010304#32, 0x00000105#32, 0x00010006#32, 0x00FF0007#32].all
      fun w => decodeOp w == .illegal .unusedOperandNotZero) = true := by decide

/-! ### Well-formedness: an ill-formed term for each check -/

theorem test_wordLegal_refuses_reserved : wordLegal 0x00000011#32 = false := by decide
theorem test_wordLegal_refuses_operand : wordLegal 0x00010304#32 = false := by decide
theorem test_asmLine_refuses_large_operand : AsmLine.wf ⟨.build, [1, 256]⟩ = false := by decide
theorem test_asmLine_refuses_missing_operand : AsmLine.wf ⟨.validateC, []⟩ = false := by decide
theorem test_layout_refuses_overlap : Layout.wf { LAYOUT_REF with current := 1 } = false := by decide
theorem test_layout_accepts_reference : Layout.wf LAYOUT_REF = true ∧ LAYOUT_REF.payloadMin = 22 := by decide
theorem test_params_refuse_small_buffer : Params.wf { PARAMS_REF with rawCap := 7 } = false := by decide
theorem test_params_refuse_huge_layout :
    Params.wf { PARAMS_REF with layout := { LAYOUT_REF with power := 2 ^ 32 } } = false := by decide
theorem test_memory_refuses_unsorted : ¬ Memory.wf [(3, 1#8), (2, 1#8)] := by decide

/-! ### Operations (one issue each) -/

theorem test_cksum_request :                                                             -- V1.1
    nextHas (issue 0x00000001#32 (loaded [0x5A#8, 0xA5#8, 0x00#8, 0x04#8, 0x01#8, 0x03#8]))
      (fun t => t.res == { Results.zeroExcept 0x0#4 with ck := 0x07#8 }) = true := by decide
theorem test_cksum_wraps :                                                               -- V1.5
    nextHas (issue 0x00000001#32 (loaded [0xFF#8, 0x01#8])) (fun t => t.res == Results.zeroExcept 0x0#4) = true := by
  decide
theorem test_build_largest :                                                             -- V2.3
    nextHas (issue 0x00FFFF02#32 State.reset) (fun t => t.res == { Results.zeroExcept 0x0#4 with
      req := #v[0x5A#8, 0xA5#8, 0x00#8, 0x04#8, 0xFF#8, 0xFF#8, 0x01#8, 0x68#8] }) = true := by decide
theorem test_build_order :                                                               -- V2.4
    nextHas (issue 0x00109002#32 State.reset) (fun t => t.res == { Results.zeroExcept 0x0#4 with
      req := #v[0x5A#8, 0xA5#8, 0x00#8, 0x04#8, 0x10#8, 0x90#8, 0xA3#8, 0x68#8] }) = true := by decide
theorem test_validate_long_payload :                                                     -- V3.26
    nextHas (issue 0x00000003#32 (loaded ([0xAA#8, 0x55#8, 0x00#8, 0x1B#8, 0x01#8, 0x03#8] ++ PL ++
        [0x99#8, 0x6A#8, 0x68#8])))
      (fun t => t.res == { Results.zeroExcept 0x0#4 with
        vfDev := 1#8, vfCmd := 3#8, vfPofs := 6#32, vfPlen := 23#32 }) = true := by decide
theorem test_validate_length_before_checksum :                                           -- V3.6
    nextHas (issue 0x00000003#32 (loaded (FR.set 3 0x1B#8))) (fun t => t.res == onlyError 0x4#4 27#32 26#32) = true := by
  decide
theorem test_validateC_other_command :                                                   -- V3.22
    nextHas (issue 0x00000404#32 (loaded FR)) (fun t => t.res == onlyError 0x6#4 4#32 3#32) = true := by decide
theorem test_validateC_checksum_first :                                                  -- V3.23
    nextHas (issue 0x00000404#32 (loaded (FR.set 28 0xD1#8)))
      (fun t => t.res == onlyError 0x5#4 0xD0#32 0xD1#32) = true := by decide
theorem test_decode_extremes :                                                           -- V4.7
    nextHas (issue 0x00000005#32 (loaded PL7)) (fun t => t.res == record7 (Results.zeroExcept 0x0#4)) = true := by decide
theorem test_decode_one_byte_status :  -- R182 with `w_BSTATUS = 1`, the later fields one byte earlier
    nextHas (issue 0x00000005#32 { loaded (PL7.eraseIdx 17) with
        params := { PARAMS_REF with
          layout := { LAYOUT_REF with bstatusWidth := .one, fault := 17, power := 19 } } })
      (fun t => t.res == { record7 (Results.zeroExcept 0x0#4) with trBstatus := 0x00AB#16 }) = true := by decide
theorem test_vdecode_extra_payload :                                                     -- V5.8
    nextHas (issue 0x00000006#32 (loaded ([0xAA#8, 0x55#8, 0x00#8, 0x1B#8, 0x01#8, 0x03#8] ++ PL ++
        [0x99#8, 0x6A#8, 0x68#8])))
      (fun t => t.res.vfPlen == 23#32 && t.res.trVtotal == 399#16 && t.res.trCurrent == 100#32 &&
        t.res.trTempMax == 40#32 && t.res.trPower == 4000#16) = true := by decide
theorem test_vdecode_short_payload :                                                     -- V5.5
    nextHas (issue 0x00000006#32 (loaded minimalFrame)) (fun t => t.res == onlyError 0x7#4 22#32 0#32) = true := by decide
theorem test_vdecodeC_whole_frame :                                                      -- V5.7
    nextHas (issue 0x00000307#32 (loaded ([0xAA#8, 0x55#8, 0x00#8, 0x1A#8, 0x02#8, 0x03#8] ++ PL7 ++ [0x1A#8, 0x68#8])))
      (fun t => t.res == record7 { Results.zeroExcept 0x0#4 with
        vfDev := 2#8, vfCmd := 3#8, vfPofs := 6#32, vfPlen := 22#32 }) = true := by decide
theorem test_vdecodeC_command_before_payload :                                           -- V5.6
    nextHas (issue 0x00000407#32 (loaded minimalFrame)) (fun t => t.res == onlyError 0x6#4 4#32 3#32) = true := by decide
theorem test_illegal_word :                                                              -- V6.11
    nextHas (issue 0x00FF0007#32 (loaded FR)) (fun t => t.res == onlyError 0xE#4 0x00FF0007#32 0#32) = true := by decide

/-! ### Host actions, reset, the first step -/

theorem test_first_step_after_reset :                                                    -- V7.2
    nextHas (step (State.reset.withFetchWord 32 3)) (fun t => t.res == onlyError 0x1#4 8#32 0#32 && t.script == [] &&
      t.opword == 3#32) = true := by decide
theorem test_reset_clears_results :                                                      -- V7.6
    nextHas (perform .reset { loaded FR with res := { Results.zeroExcept 0x0#4 with ck := 7#8 }, opword := 2#32 })
      (fun t => t == { State.reset with inDraw := 1 }) = true := by decide
theorem test_writeIN_keeps_order :
    nextHas (perform (.writeIN 1 9#8) (loaded [1#8, 2#8, 3#8])) (fun t => t.inBuf == [(0, 1#8), (1, 9#8), (2, 3#8)]) = true :=
  by decide
theorem test_read_signed_register :                                                      -- V4.4: −400 as 0xFFFFFE70
    nextHas (perform (.read (.result .trTempMax)) { State.reset with res := record7 (Results.zeroExcept 0x0#4) })
      (fun t => t.reads == [⟨.result .trTempMax, 0xFFFFFE70#32⟩]) = true := by decide
theorem test_host_branch :                                                               -- R82: taken, STATUS is None
    HostItem.nextPos (.ifNotOk 7) 2 State.reset = 7 := by decide
theorem test_load :
    loadActions [0xAA#8, 0x55#8] = [.writeIN 0 0xAA#8, .writeIN 1 0x55#8, .writeLEN 2#32] := by decide

/-! ### Assembler, flags and units -/

theorem test_assemble_build : assembleLine none "BUILD       0x01, 3" = some 0x00010302#32 := by decide   -- R82
theorem test_assemble_range : assembleLine none "VALIDATE.C  256" = none := by decide                     -- R82
theorem test_assemble_pseudo : assembleLine (some 3#8) "READINFO" = some 0x00000307#32 := by decide       -- R83
theorem test_flags : flags 0x80#8 = [false, false, false, false, false, false, false, true] := by decide  -- P2
theorem test_physical_temperature :                                                      -- W3: raw 440 is 4.0 °C
    TrField.sourceTransform .tempMax 440 = some 4 ∧
    TrField.physical .tempMax { Results.zeroExcept 0x0#4 with trTempMax := 40#32 } = some 4 := by
  have h : (40#32 : Word).toInt = 40 := by decide
  constructor <;> norm_num [TrField.sourceTransform, TrField.physical, TrField.step, TrField.value, h]

/-! ### Witnesses: the hypotheses of each statement can be met together -/

theorem witness_EncodeOfDecodeIsIdentity : decodeOp 0x0000FF04#32 = .instr (.validateC 255#8) := by decide
theorem witness_IllegalWordEndsInIllegalOp_illegal :  -- one word of each kind, at the edges of `OP`'s ranges
    illegalWord 0x00000000#32 ∧ illegalWord 0x00000008#32 ∧ illegalWord 0x00000017#32 ∧ illegalWord 0x01000002#32 ∧
    illegalWord 0x00000101#32 ∧ illegalWord 0x00010007#32 := by simp [illegalWord]
theorem witness_IllegalWordEndsInIllegalOp_legal :
    ¬ illegalWord 0x00000001#32 ∧ ¬ illegalWord 0x00FFFF02#32 ∧ ¬ illegalWord 0x0000FF07#32 := by
  simp [illegalWord]
theorem witness_StepRunsTheDecodedInstruction :
    decodeOp 0x00010302#32 = .instr (.build 1#8 3#8) ∧
    (State.reset.setScript [.issue 0x00010302#32, .reset]).script = .issue 0x00010302#32 :: [.reset] := by decide
theorem witness_AllowedRunReachesItsEnd :
    ∀ a ∈ [HostAction.writeIN 65538 1#8, .writeLEN 65539#32, .read (.inByte 65538), .issue 0#32, .reset],
      a.allowed State.reset.params = true := by decide
theorem witness_StepStopsOnlyOnForbiddenActions :
    (State.reset.setScript [.writeLEN 65540#32]).script = .writeLEN 65540#32 :: [] ∧
    State.reset.params.rawCap < (65540#32).toNat ∧
    (State.reset.setScript [.writeIN 65539 1#8]).script = .writeIN 65539 1#8 :: [] ∧
    State.reset.params.rawCap ≤ 65539 := by decide
theorem witness_WriteInChangesOneByte : 65538 < State.reset.params.rawCap := by decide
theorem witness_WriteLenSetsTheLength : (65539#32).toNat ≤ State.reset.params.rawCap := by decide
theorem witness_LoadMakesTheBytesTheInput : FR.length ≤ State.reset.params.rawCap ∧ FR.length < 2 ^ 32 := by decide
theorem witness_ReadsHaveNoSideEffect :
    ∀ r ∈ [HostReg.opword, .inByte 65538, .result (.req 7)], (HostAction.read r).allowed State.reset.params = true := by
  decide
theorem witness_StepKeepsTheInvariant :
    (State.reset.setScript [.issue 0x00010302#32]).Inv ∧
    ∃ t, step (State.reset.setScript [.issue 0x00010302#32]) = .next t := by
  refine ⟨⟨by decide, by decide, by simp [State.reset], by simp [State.reset], by decide, ?_, ?_, ?_, ?_, ?_, ?_⟩, _, rfl⟩ <;>
    simp [State.reset, Results.zeroExcept, Results.holdNoValue]
theorem witness_ResultRegistersByOperation_ok :
    ∃ t, exec .cksum (loaded FR) = .next t ∧ t.res.status = 0x0#4 := ⟨_, rfl, by decide⟩
theorem witness_ResultRegistersByOperation_error :
    ∃ t, exec .decode (loaded minimalFrame) = .next t ∧ t.res.status ≠ 0x0#4 := ⟨_, rfl, by decide⟩
theorem witness_ErrorsAreRaisedByTheirOperations :
    (∃ t, exec (.validateC 4#8) (loaded FR) = .next t ∧ t.res.status = 0x6#4) ∧
    (∃ t, exec .vdecode (loaded minimalFrame) = .next t ∧ t.res.status = 0x7#4) ∧
    ∃ t, exec .validate (loaded [0xAA#8]) = .next t ∧ t.res.status = 0x1#4 :=
  ⟨⟨_, rfl, by decide⟩, ⟨_, rfl, by decide⟩, ⟨_, rfl, by decide⟩⟩
theorem witness_ResultsDependOnTheInputAlone :  -- different results and different bytes beyond `IN_LEN`
    let s := { loaded FR with inLen := 29#32 }
    let t := { loaded (FR.set 29 0#8) with inLen := 29#32, res := onlyError 0x1#4 8#32 0#32 }
    s.params.layout = t.params.layout ∧ s.inLen = t.inLen ∧ (∀ i, i < s.inLen.toNat → inByte s i = inByte t i) ∧
    inByte s 29 ≠ inByte t 29 ∧ s.res ≠ t.res := by decide
theorem witness_OperationsAreIdempotent :
    ∃ t, issue 0x00000001#32 (loaded [1#8, 2#8]) = .next t ∧
      ∀ i, i < t.inLen.toNat → inByte (t.setScript [.reset]) i = inByte t i := ⟨_, rfl, fun _ _ => rfl⟩
theorem witness_ResetGivesTheResetValues :
    State.reset.res.status = 0xF#4 ∧ HostAction.writeLEN 8#32 ≠ .issue 0#32 ∧
    nextHas (perform (.writeLEN 8#32) State.reset) (fun _ => true) = true := by decide
theorem witness_OperationsStraightAfterReset : ∃ t, perform .reset (loaded FR) = .next t := ⟨_, rfl⟩
theorem witness_OneChangedByteChangesTheChecksum :
    (0#8 ≠ 255#8) ∧ 7 < 8 ∧ (254#8 ≠ 255#8) ∧ (1#8 ≠ 0#8) := by decide
theorem witness_RequestNeverValidates :
    ∃ t, exec (.build 1#8 3#8) State.reset = .next t ∧ holdsInput (loaded t.res.req.toList) t.res.req.toList ∧
      validates (.vdecodeC 3#8) = true := by
  refine ⟨_, rfl, ?_, rfl⟩
  unfold holdsInput
  decide
theorem witness_ValidationAcceptsExactlyWellFormedFrames :
    PL.length ≤ 65531 ∧ holdsInput (loaded FR) (responseFrame 1#8 3#8 PL) ∧
    holdsInput (loaded minimalFrame) (responseFrame 1#8 3#8 []) := by unfold holdsInput; decide
theorem minimalFrame_validates :
    ∃ t, exec .validate (loaded minimalFrame) = .next t ∧ t.res.status = 0x0#4 := ⟨_, rfl, by decide⟩
theorem witness_SingleByteMutationIsRejected :
    (∃ t, exec .validate (loaded minimalFrame) = .next t ∧ t.res.status = 0x0#4) ∧
    ∀ k ∈ [0, 1, 2, 3, 4, 5, 6, 7], k < (loaded minimalFrame).inLen.toNat ∧
      (loaded (minimalFrame.set k 0xFF#8)).inLen = (loaded minimalFrame).inLen ∧
      inByte (loaded (minimalFrame.set k 0xFF#8)) k ≠ inByte (loaded minimalFrame) k ∧
      validates (.validateC 0xFF#8) = true ∧
      ∀ i, i < (loaded minimalFrame).inLen.toNat → i ≠ k →
        inByte (loaded (minimalFrame.set k 0xFF#8)) i = inByte (loaded minimalFrame) i :=
  ⟨minimalFrame_validates, by decide⟩
/-- A frame with one payload byte, by hand from R76: the sum of its first seven bytes is 345, low byte `0x59`. -/
def onePayloadByte : List Byte := [0xAA#8, 0x55#8, 0x00#8, 0x05#8, 0x01#8, 0x03#8, 0x51#8, 0x59#8, 0x68#8]
theorem witness_SingleByteMutationIsRejected_payload :  -- offset 6 is a payload byte, offset 7 the checksum
    (∃ t, exec .validate (loaded onePayloadByte) = .next t ∧ t.res.status = 0x0#4) ∧
    ∀ k ∈ [6, 7], k < (loaded onePayloadByte).inLen.toNat ∧
      (loaded (onePayloadByte.set k 0xFF#8)).inLen = (loaded onePayloadByte).inLen ∧
      inByte (loaded (onePayloadByte.set k 0xFF#8)) k ≠ inByte (loaded onePayloadByte) k ∧
      validates .validate = true ∧
      ∀ i, i < (loaded onePayloadByte).inLen.toNat → i ≠ k →
        inByte (loaded (onePayloadByte.set k 0xFF#8)) i = inByte (loaded onePayloadByte) i :=
  ⟨⟨_, rfl, by decide⟩, by decide⟩
theorem witness_StrictPrefixNeverValidates :
    (∃ t, exec .validate (loaded FR) = .next t ∧ t.res.status = 0x0#4) ∧
    (loaded (FR.take 29)).inLen.toNat < (loaded FR).inLen.toNat ∧ validates .vdecode = true ∧
    ∀ i, i < (loaded (FR.take 29)).inLen.toNat → inByte (loaded (FR.take 29)) i = inByte (loaded FR) i :=
  ⟨⟨_, rfl, by decide⟩, by decide⟩
theorem witness_OversizedInputNeverValidates_large :
    let s := { State.reset with inBuf := [(0, 0xAA#8), (1, 0x55#8), (65539, 0x68#8)], inLen := 65540#32 }
    65539 < s.inLen.toNat ∧ validates .validate = true ∧ inByte s 0 = 0xAA#8 ∧ inByte s 1 = 0x55#8 ∧ inByte s (s.inLen.toNat - 1) = 0x68#8 := by decide
theorem witness_OversizedInputNeverValidates_appended :
    (∃ t, exec .validate (loaded minimalFrame) = .next t ∧ t.res.status = 0x0#4) ∧
    (loaded minimalFrame).inLen.toNat < (loaded (minimalFrame ++ [0x68#8])).inLen.toNat ∧ validates .vdecode = true ∧
    ∀ i, i < (loaded minimalFrame).inLen.toNat →
      inByte (loaded (minimalFrame ++ [0x68#8])) i = inByte (loaded minimalFrame) i :=
  ⟨minimalFrame_validates, by decide⟩
theorem witness_ShortAndZeroInputsAreRejected :
    validates .vdecode = true ∧ (loaded [0xAA#8]).inLen.toNat < 8 ∧
    8 ≤ (loaded (List.replicate 8 0#8)).inLen.toNat ∧
    ∀ k, k < (loaded (List.replicate 8 0#8)).inLen.toNat → inByte (loaded (List.replicate 8 0#8)) k = 0#8 := by decide
theorem witness_VdecodeIsValidateThenDecodeOfTheView :
    ∃ v, exec .validate (loaded FR) = .next v ∧ v.res.status = 0x0#4 ∧ (loaded PL).params = (loaded FR).params ∧
      (loaded PL).inLen = v.res.vfPlen ∧
      ∀ k, k < v.res.vfPlen.toNat → inByte (loaded PL) k = inByte (loaded FR) (v.res.vfPofs.toNat + k) :=
  ⟨_, rfl, by decide⟩
theorem witness_PhysicalValuesAreExact :
    reachesDecoder .decode (loaded PL) ∧ PARAMS_REF.layout.payloadMin ≤ payloadLength .decode (loaded PL) ∧
    reachesDecoder (.vdecodeC 3#8) (loaded FR) ∧ PARAMS_REF.layout.payloadMin ≤ payloadLength (.vdecodeC 3#8) (loaded FR) ∧
    TrField.step .relay = none := by unfold reachesDecoder; decide
theorem insideField_reference {k : Nat} (h : insideField LAYOUT_REF k) : k < 22 := by
  obtain ⟨f, hf, _, h2⟩ := h
  have h3 := field_end_le_payloadMin hf
  rw [show LAYOUT_REF.payloadMin = 22 by decide] at h3
  exact Nat.lt_of_lt_of_le h2 h3
theorem witness_BytesOutsideTheFieldsAreIgnored :  -- V4.1 and V4.6
    let s := loaded PL
    let t := loaded (PL ++ [0x99#8, 0x99#8, 0x99#8])
    reachesDecoder .decode s ∧ reachesDecoder .decode t ∧ s.params.layout = t.params.layout ∧
    s.params.layout.payloadMin ≤ payloadLength .decode s ∧ t.params.layout.payloadMin ≤ payloadLength .decode t ∧
    ∀ k, insideField s.params.layout k → inByte s (payloadStart .decode + k) = inByte t (payloadStart .decode + k) := by
  refine ⟨by unfold reachesDecoder; decide, by unfold reachesDecoder; decide, rfl, by decide, by decide, fun k hk => ?_⟩
  have hb : ∀ k, k < 22 → inByte (loaded PL) (payloadStart .decode + k) =
      inByte (loaded (PL ++ [0x99#8, 0x99#8, 0x99#8])) (payloadStart .decode + k) := by decide
  exact hb k (insideField_reference (show insideField LAYOUT_REF k from hk))
theorem witness_DecoderRejectsNoFieldValue :
    reachesDecoder .vdecode (loaded FR) ∧ (loaded FR).params.layout.payloadMin ≤ payloadLength .vdecode (loaded FR) := by
  unfold reachesDecoder; decide
theorem witness_DecodeRecoversEncodedFields :
    (loaded PL7).params.layout = LAYOUT_REF ∧
    holdsInput (loaded PL7) (payloadOf 65535#16 15900#16 0#16 65535#16 1000#16 0#16 65535#16 0#8 255#8 0xABCD#16 0x1234#16
      0#16) := by unfold holdsInput; decide
theorem witness_FlagsAreBitsLeastSignificantFirst : 7 < 8 := by decide
theorem witness_ViewNamesTheBytesOfInAsTheyAreNow :
    ∃ t, validates .vdecode = true ∧ exec .vdecode (loaded FR) = .next t ∧ t.res.status = 0x0#4 ∧
      6 < (loaded FR).params.rawCap ∧ 0 < t.res.vfPlen.toNat := ⟨_, rfl, rfl, by decide⟩

end Sys2Proof.Tests
end

/-! PROOF. The statements about the state, the step and HOST's actions (O6 to O11, O13, O14, O17, O19). What an operation
leaves is said once, as a function of the layout and the input (`exec_eq`), and what a HOST action does once, action by
action; every statement follows from these. -/

namespace Sys2Proof.Machine

open Sys2Proof.Claim

/-! ### What an operation leaves, as a function of the layout and the input alone -/

/-- The `VF_` registers written over other results, as `writeFrame` does (R149). -/
def Results.withFrame (v : ValidatedFrame) (r : Results) : Results :=
  { r with vfDev := v.dev, vfCmd := v.cmd, vfPofs := BitVec.ofNat 32 v.pofs, vfPlen := BitVec.ofNat 32 v.plen }

/-- The `TR_` registers written over other results, as `writeRecord` does (R190). -/
def Results.withTelemetry (t : TelemetryRecord) (r : Results) : Results :=
  { r with
    trVtotal := BitVec.ofNat 16 t.vtotal
    trCurrent := BitVec.ofInt 32 t.current
    trVcellMax := BitVec.ofNat 16 t.vcellMax
    trVcellMin := BitVec.ofNat 16 t.vcellMin
    trSoc := BitVec.ofNat 16 t.soc
    trTempMax := BitVec.ofInt 32 t.tempMax
    trTempMin := BitVec.ofInt 32 t.tempMin
    trRelay := t.relay
    trDin := t.din
    trBstatus := BitVec.ofNat 16 t.bstatus
    trFault := BitVec.ofNat 16 t.fault
    trPower := BitVec.ofNat 16 t.power }

/-- Both, as `writeFrameAndRecord` does (R188). -/
def Results.withFrameAndTelemetry (vt : ValidatedFrame × TelemetryRecord) (r : Results) : Results :=
  (r.withFrame vt.1).withTelemetry vt.2

theorem raise_eq_errorResults (r : Report) (s : State) :
    raise r s = s.setRes (errorResults r.kind.code r.x r.y) := rfl

/-- The result state an operation that can fail ends in: its error, or its value written over cleared results. -/
def Res.results {α : Type} (write : α → Results → Results) : Res α → Results
  | .ok v => write v (Results.zeroExcept STATUS_OK)
  | .err e => errorResults e.kind.code e.x e.y

/-- `finish` replaces the result state, and with what depends on nothing in the state it starts from. -/
theorem finish_eq {α : Type} {write : α → State → State} {writeRes : α → Results → Results}
    (hw : ∀ v s, succeed (write v (clearResults s)) = s.setRes (writeRes v (Results.zeroExcept STATUS_OK)))
    (r : Res α) (s : State) : finish r write s = s.setRes (r.results writeRes) := by
  cases r with
  | ok v => exact hw v s
  | err e => exact raise_eq_errorResults e s

theorem finish_writeFrame_eq (r : Res ValidatedFrame) (s : State) :
    finish r writeFrame s = s.setRes (r.results Results.withFrame) := finish_eq (fun _ _ => rfl) r s

theorem finish_writeRecord_eq (r : Res TelemetryRecord) (s : State) :
    finish r writeRecord s = s.setRes (r.results Results.withTelemetry) := finish_eq (fun _ _ => rfl) r s

theorem finish_writeFrameAndRecord_eq (r : Res (ValidatedFrame × TelemetryRecord)) (s : State) :
    finish r writeFrameAndRecord s = s.setRes (r.results Results.withFrameAndTelemetry) :=
  finish_eq (fun _ _ => rfl) r s

/-- The result state an instruction leaves, from the `LAYOUT`, the bytes of the input and its length. -/
def operationResults (L : Layout) (rd : Nat → Byte) (n : Nat) : Instr → Results
  | .cksum => { Results.zeroExcept STATUS_OK with ck := cksum8 (slice rd 0 n) }
  | .build dev cmd => { Results.zeroExcept STATUS_OK with req := requestFrame dev cmd }
  | .validate => (validateFrame rd n none).results Results.withFrame
  | .validateC exp => (validateFrame rd n (some exp)).results Results.withFrame
  | .decode => (decodePayload L rd n).results Results.withTelemetry
  | .vdecode => (validateDecode L rd n none).results Results.withFrameAndTelemetry
  | .vdecodeC exp => (validateDecode L rd n (some exp)).results Results.withFrameAndTelemetry

/-- All that an instruction does: it replaces the result state, by what `operationResults` says. -/
theorem exec_eq (i : Instr) (s : State) :
    exec i s = .next (s.setRes (operationResults s.params.layout (inByte s) (inputLen s) i)) := by
  cases i with
  | cksum => rfl
  | build dev cmd => rfl
  | validate => rw [exec, execValidate, finish_writeFrame_eq, operationResults]
  | validateC exp => rw [exec, execValidateC, finish_writeFrame_eq, operationResults]
  | decode => rw [exec, execDecode, finish_writeRecord_eq, operationResults]
  | vdecode => rw [exec, execVdecode, finish_writeFrameAndRecord_eq, operationResults]
  | vdecodeC exp => rw [exec, execVdecodeC, finish_writeFrameAndRecord_eq, operationResults]

/-- The frame of a successful validation: at least 8 bytes, with the payload between the two ends (R141, R147). -/
theorem validateFrame_ok {rd : Nat → Byte} {n : Nat} {expected : Option Byte} {v : ValidatedFrame}
    (h : validateFrame rd n expected = .ok v) :
    FRAME_MIN ≤ n ∧ v = ⟨rd DEV_OFS, rd CMD_OFS, PAYLOAD_OFS, n - FRAME_OVERHEAD⟩ := by
  unfold validateFrame at h
  split at h
  · cases h
  · rename_i hn
    refine ⟨Nat.le_of_not_lt hn, ?_⟩
    repeat' split at h
    all_goals cases h
    all_goals rfl

/-- A successful DECODE is the record of its payload (R170). -/
theorem decodePayload_ok {L : Layout} {p : Nat → Byte} {m : Nat} {t : TelemetryRecord}
    (h : decodePayload L p m = .ok t) : t = extractRecord L p := by
  unfold decodePayload at h
  split at h <;> cases h
  rfl

/-- A successful VDECODE is a successful validation and the record of the view it names (R188). -/
theorem validateDecode_ok {L : Layout} {rd : Nat → Byte} {n : Nat} {expected : Option Byte}
    {v : ValidatedFrame} {t : TelemetryRecord} (h : validateDecode L rd n expected = .ok (v, t)) :
    validateFrame rd n expected = .ok v ∧ t = extractRecord L (viewFrom rd v.pofs) := by
  unfold validateDecode at h
  split at h
  · cases h
  · rename_i v' hv
    split at h
    · cases h
    · rename_i t' ht
      cases h
      exact ⟨hv, decodePayload_ok ht⟩

/-- The result states an operation can leave, by the way it ends: with an error, which a validation or a decoding alone
can raise (R211 to R217), or with the registers of its own value written over zeros. -/
inductive Leaves : Instr → Results → Prop
  | error {i : Instr} (h : validates i = true ∨ decodes i = true) (e : Report) :
      Leaves i (errorResults e.kind.code e.x e.y)
  | checksum (v : Byte) : Leaves .cksum { Results.zeroExcept STATUS_OK with ck := v }
  | request (dev cmd : Byte) :
      Leaves (.build dev cmd) { Results.zeroExcept STATUS_OK with req := requestFrame dev cmd }
  | frame {i : Instr} (hv : validates i = true) {v : ValidatedFrame} (hofs : v.pofs = PAYLOAD_OFS) :
      Leaves i ((Results.zeroExcept STATUS_OK).withFrame v)
  | telemetry {i : Instr} (hd : decodes i = true) (L : Layout) (p : Nat → Byte) :
      Leaves i ((Results.zeroExcept STATUS_OK).withTelemetry (extractRecord L p))
  | both {i : Instr} (hv : validates i = true) (hd : decodes i = true) {v : ValidatedFrame}
      (hofs : v.pofs = PAYLOAD_OFS) (L : Layout) (p : Nat → Byte) :
      Leaves i (((Results.zeroExcept STATUS_OK).withFrame v).withTelemetry (extractRecord L p))

theorem leaves_validateFrame {i : Instr} (hv : validates i = true) (rd : Nat → Byte) (n : Nat) (expected : Option Byte) :
    Leaves i ((validateFrame rd n expected).results Results.withFrame) := by
  cases h : validateFrame rd n expected with
  | err e => exact .error (.inl hv) e
  | ok v => exact .frame hv (by rw [(validateFrame_ok h).2])

theorem leaves_decodePayload {i : Instr} (hd : decodes i = true) (L : Layout) (p : Nat → Byte) (m : Nat) :
    Leaves i ((decodePayload L p m).results Results.withTelemetry) := by
  cases h : decodePayload L p m with
  | err e => exact .error (.inr hd) e
  | ok t =>
    rw [decodePayload_ok h]
    exact .telemetry hd L p

theorem leaves_validateDecode {i : Instr} (hv : validates i = true) (hd : decodes i = true) (L : Layout)
    (rd : Nat → Byte) (n : Nat) (expected : Option Byte) :
    Leaves i ((validateDecode L rd n expected).results Results.withFrameAndTelemetry) := by
  cases h : validateDecode L rd n expected with
  | err e => exact .error (.inl hv) e
  | ok vt =>
    obtain ⟨hframe, hrecord⟩ := validateDecode_ok h
    rw [Res.results, Results.withFrameAndTelemetry, hrecord]
    exact .both hv hd (by rw [(validateFrame_ok hframe).2]) L _

/-- Every operation ends in one of these ways. -/
theorem leaves_operationResults (L : Layout) (rd : Nat → Byte) (n : Nat) (i : Instr) :
    Leaves i (operationResults L rd n i) := by
  cases i with
  | cksum => exact .checksum _
  | build dev cmd => exact .request dev cmd
  | validate => exact leaves_validateFrame rfl rd n none
  | validateC exp => exact leaves_validateFrame rfl rd n (some exp)
  | decode => exact leaves_decodePayload rfl L rd n
  | vdecode => exact leaves_validateDecode rfl rfl L rd n none
  | vdecodeC exp => exact leaves_validateDecode rfl rfl L rd n (some exp)

/-! ### What the invariant asks of the result state -/

/-- The clauses of `State.Inv` that speak of the result state alone. -/
structure Results.Sound (r : Results) : Prop where
  status : statusLegal r.status = true
  failed : r.status ≠ STATUS_OK → r.holdNoValue
  details : r.status = STATUS_OK ∨ r.status = STATUS_NONE → r.errX = 0#32 ∧ r.errY = 0#32
  view : (r.vfPofs = 0#32 ∧ r.vfPlen = 0#32) ∨ r.vfPofs = 6#32
  current : -16000 ≤ r.trCurrent.toInt ∧ r.trCurrent.toInt ≤ 49535
  tempMax : -400 ≤ r.trTempMax.toInt ∧ r.trTempMax.toInt ≤ 65135
  tempMin : -400 ≤ r.trTempMin.toInt ∧ r.trTempMin.toInt ≤ 65135

/-- An operation or a reset keeps the invariant when the results it leaves are sound. -/
theorem inv_setRes {s : State} (h : s.Inv) {q : Results} (hq : q.Sound) : (s.setRes q).Inv :=
  { hq with params := h.params, memory := h.memory, indices := h.indices, length := h.length }

theorem zeroExcept_holdNoValue (c : BitVec 4) : (Results.zeroExcept c).holdNoValue := by
  simp [Results.holdNoValue, Results.zeroExcept]

theorem zeroExcept_sound {c : BitVec 4} (h : statusLegal c = true) : (Results.zeroExcept c).Sound where
  status := h
  failed _ := zeroExcept_holdNoValue c
  details _ := ⟨rfl, rfl⟩
  view := .inl ⟨rfl, rfl⟩
  current := by simp [Results.zeroExcept]
  tempMax := by simp [Results.zeroExcept]
  tempMin := by simp [Results.zeroExcept]

theorem code_ne_ok (k : ErrorKind) : k.code ≠ STATUS_OK := by cases k <;> decide

theorem code_ne_none (k : ErrorKind) : k.code ≠ STATUS_NONE := by cases k <;> decide

theorem statusLegal_code (k : ErrorKind) : statusLegal k.code = true := by cases k <;> decide

/-- An error leaves no value (R27). -/
theorem errorResults_holdNoValue (c : BitVec 4) (x y : Nat) : (errorResults c x y).holdNoValue := zeroExcept_holdNoValue c

theorem errorResults_sound (k : ErrorKind) (x y : Nat) : (errorResults k.code x y).Sound :=
  { zeroExcept_sound (statusLegal_code k) with
    failed := fun _ => errorResults_holdNoValue _ x y
    details := fun h => absurd h (not_or.mpr ⟨code_ne_ok k, code_ne_none k⟩) }

/-- A biased field keeps its exact value as 32-bit two's complement (R10). -/
theorem toInt_ofInt_be16_sub (rd : Nat → Byte) (o : Nat) {bias : Int} (h0 : 0 ≤ bias) (h1 : bias ≤ 65535) :
    (BitVec.ofInt 32 ((be16 rd o : Int) - bias)).toInt = (be16 rd o : Int) - bias := by
  have h := be16_lt rd o
  rw [BitVec.toInt_ofInt, Int.bmod_eq_of_le] <;> omega

/-- Writing a frame's registers keeps soundness where `STATUS = OK`: the view then starts at byte 6 (R147). -/
theorem withFrame_sound {r : Results} (h : r.Sound) (hok : r.status = STATUS_OK) {v : ValidatedFrame}
    (hofs : v.pofs = PAYLOAD_OFS) : (r.withFrame v).Sound :=
  { h with
    failed := fun hne => absurd hok hne
    view := .inr (by rw [Results.withFrame, hofs]; rfl) }

/-- Writing a record keeps soundness where `STATUS = OK`: a biased field is a 16-bit number less its bias (R174, R178,
R179). -/
theorem withTelemetry_sound {r : Results} (h : r.Sound) (hok : r.status = STATUS_OK) (L : Layout) (p : Nat → Byte) :
    (r.withTelemetry (extractRecord L p)).Sound := by
  have hcurrent := be16_lt p L.current
  have hmax := be16_lt p L.tempMax
  have hmin := be16_lt p L.tempMin
  refine { h with failed := fun hne => absurd hok hne, current := ?_, tempMax := ?_, tempMin := ?_ } <;>
    simp only [Results.withTelemetry, extractRecord] <;>
    rw [toInt_ofInt_be16_sub _ _ (by decide) (by decide)] <;>
    simp only [CURRENT_BIAS, TEMP_BIAS] <;> omega

theorem Leaves.sound {i : Instr} {r : Results} (h : Leaves i r) : r.Sound := by
  have hzero : (Results.zeroExcept STATUS_OK).Sound := zeroExcept_sound (by decide)
  cases h with
  | error _ e => exact errorResults_sound e.kind e.x e.y
  | checksum v => exact { hzero with failed := fun hne => absurd rfl hne }
  | request dev cmd => exact { hzero with failed := fun hne => absurd rfl hne }
  | frame _ hofs => exact withFrame_sound hzero rfl hofs
  | telemetry _ L p => exact withTelemetry_sound hzero rfl L p
  | both _ _ hofs L p => exact withTelemetry_sound (withFrame_sound hzero rfl hofs) rfl L p

/-! ### What a HOST action does -/

theorem perform_writeIN_eq_next_iff {i : Nat} {b : Byte} {s t : State} :
    perform (.writeIN i b) s = .next t ↔ i < s.params.rawCap ∧ s.setInBuf (s.inBuf.write i b) = t := by
  simp only [perform, writeIN]
  split <;> simp [*]

theorem perform_writeLEN_eq_next_iff {m : Word} {s t : State} :
    perform (.writeLEN m) s = .next t ↔ m.toNat ≤ s.params.rawCap ∧ s.setInLen m = t := by
  simp only [perform, writeLEN]
  split <;> simp [*]

theorem perform_read_eq_next_iff {r : HostReg} {s t : State} :
    perform (.read r) s = .next t ↔ readable r s = true ∧ s.pushRead ⟨r, readReg r s⟩ = t := by
  simp only [perform, hostRead]
  split <;> simp [*]

/-- The result state an issued word leaves: its operation's, or `IllegalOp(OPWORD, 0)` (R22, R219). -/
def issueResults (w : Word) (s : State) : Results :=
  match decodeOp w with
  | .instr i => operationResults s.params.layout (inByte s) (inputLen s) i
  | .illegal _ => errorResults ErrorKind.illegalOp.code w.toNat 0

/-- All that an issue does: `OPWORD` gets the word, the result state is replaced, nothing else changes. -/
theorem issue_eq (w : Word) (s : State) : issue w s = .next ((s.setOpword w).setRes (issueResults w s)) := by
  rcases decodeOp_cases w with ⟨i, h⟩ | ⟨why, h⟩
  · rw [issue_legal h, exec_eq, issueResults, h]
    rfl
  · rw [issue_illegal h, raise_eq_errorResults, issueResults, h]

theorem issueResults_sound (w : Word) (s : State) : (issueResults w s).Sound := by
  rcases decodeOp_cases w with ⟨i, h⟩ | ⟨why, h⟩ <;> simp only [issueResults, h]
  · exact (leaves_operationResults _ _ _ i).sound
  · exact errorResults_sound .illegalOp w.toNat 0

theorem perform_issue_eq_next_iff {w : Word} {s t : State} :
    perform (.issue w) s = .next t ↔ (s.setOpword w).setRes (issueResults w s) = t := by
  rw [perform_issue, issue_eq, Host.Outcome.next.injEq]

theorem perform_reset_eq_next_iff {s t : State} : perform .reset s = .next t ↔ resetBlock s = t := by
  rw [perform_reset, Host.Outcome.next.injEq]

theorem perform_writeResult (r : ResultReg) (v : Word) (s : State) : perform (.writeResult r v) s = .next s := rfl

theorem perform_writeResult_eq_next_iff {r : ResultReg} {v : Word} {s t : State} :
    perform (.writeResult r v) s = .next t ↔ s = t := by
  rw [perform_writeResult, Host.Outcome.next.injEq]

/-- A Read has a step exactly when R38 gives it to HOST. -/
theorem readable_eq_allowed (r : HostReg) (s : State) : readable r s = (HostAction.read r).allowed s.params := by
  cases r <;> rfl

/-- An action has a step exactly when R38 gives it to HOST. -/
theorem perform_next_iff_allowed (a : HostAction) (s : State) :
    (∃ t, perform a s = .next t) ↔ a.allowed s.params = true := by
  cases a with
  | writeIN i b => simp [perform_writeIN_eq_next_iff, HostAction.allowed]
  | writeLEN m => simp [perform_writeLEN_eq_next_iff, HostAction.allowed]
  | issue w => simp [perform_issue_eq_next_iff, HostAction.allowed]
  | read r => simp [perform_read_eq_next_iff, readable_eq_allowed]
  | reset => simp [perform_reset_eq_next_iff, HostAction.allowed]
  | writeResult r v => simp [perform_writeResult_eq_next_iff, HostAction.allowed]

/-- No action touches HOST's own pending actions or the parameters (log 1, log 3, log 10). -/
theorem perform_keeps_script_params {a : HostAction} {s t : State} (h : perform a s = .next t) :
    t.script = s.script ∧ t.params = s.params := by
  cases a with
  | writeIN i b => obtain ⟨-, rfl⟩ := perform_writeIN_eq_next_iff.mp h; exact ⟨rfl, rfl⟩
  | writeLEN m => obtain ⟨-, rfl⟩ := perform_writeLEN_eq_next_iff.mp h; exact ⟨rfl, rfl⟩
  | issue w => obtain rfl := perform_issue_eq_next_iff.mp h; exact ⟨rfl, rfl⟩
  | read r => obtain ⟨-, rfl⟩ := perform_read_eq_next_iff.mp h; exact ⟨rfl, rfl⟩
  | reset => obtain rfl := perform_reset_eq_next_iff.mp h; exact ⟨rfl, rfl⟩
  | writeResult r v => obtain rfl := perform_writeResult_eq_next_iff.mp h; exact ⟨rfl, rfl⟩

/-! ### The invariant (O14) -/

theorem inv_writeIN {s : State} (h : s.Inv) {i : Nat} (hi : i < s.params.rawCap) (b : Byte) :
    (s.setInBuf (s.inBuf.write i b)).Inv :=
  { h with
    memory := Memory.wf_write h.memory i b
    indices := fun c hc => (Memory.mem_write hc).elim (fun he => he ▸ hi) (h.indices c) }

theorem inv_resetBlock {s : State} (h : s.Inv) : (resetBlock s).Inv :=
  { zeroExcept_sound (c := STATUS_NONE) (by decide) with
    params := h.params
    memory := Memory.wf_nil
    indices := fun _ hc => absurd hc List.not_mem_nil
    length := Nat.zero_le _ }

/-- Every HOST action keeps the invariant. -/
theorem inv_perform {a : HostAction} {s t : State} (hs : s.Inv) (h : perform a s = .next t) : t.Inv := by
  cases a with
  | writeIN i b =>
    obtain ⟨hi, rfl⟩ := perform_writeIN_eq_next_iff.mp h
    exact inv_writeIN hs hi b
  | writeLEN m =>
    obtain ⟨hm, rfl⟩ := perform_writeLEN_eq_next_iff.mp h
    exact { hs with length := hm }
  | issue w =>
    obtain rfl := perform_issue_eq_next_iff.mp h
    have hop : (s.setOpword w).Inv := { hs with }
    exact inv_setRes hop (issueResults_sound w s)
  | read r =>
    obtain ⟨-, rfl⟩ := perform_read_eq_next_iff.mp h
    exact { hs with }
  | reset =>
    obtain rfl := perform_reset_eq_next_iff.mp h
    exact inv_resetBlock hs
  | writeResult r v =>
    obtain rfl := perform_writeResult_eq_next_iff.mp h
    exact hs

/-- Settles O14: a step is a HOST action, and every action keeps each clause it touches. -/
theorem stepKeepsTheInvariant : Obligations.StepKeepsTheInvariant := by
  intro s t hs h
  cases hscript : s.script with
  | nil =>
    rw [step_nil hscript, Host.Outcome.next.injEq] at h
    exact h ▸ hs
  | cons a rest =>
    rw [step_cons hscript] at h
    have hrest : (s.setScript rest).Inv := { hs with }
    exact inv_perform hrest h

/-! ### The step and HOST's actions (O6 to O11, O13) -/

/-- A run of the machine goes on from the state its first step answers. -/
theorem run_succ_of_step {s t : State} (h : step s = .next t) (k : Nat) :
    Host.Core.run core (k + 1) s = Host.Core.run core k t := by
  have hcore : core.step s = .next t := h
  simp only [Host.Core.run, hcore]

/-- Settles O7, by induction on HOST's pending actions: each has a step, and leaves the others and the parameters. -/
theorem allowedRunReachesItsEnd : Obligations.AllowedRunReachesItsEnd := by
  intro s hallowed
  induction hscript : s.script generalizing s with
  | nil => exact ⟨s, rfl, hscript, rfl⟩
  | cons a rest ih =>
    rw [hscript] at hallowed
    obtain ⟨t, ht⟩ := (perform_next_iff_allowed a (s.setScript rest)).mpr (hallowed a List.mem_cons_self)
    obtain ⟨htscript, htparams⟩ := perform_keeps_script_params ht
    rw [setScript_script] at htscript
    rw [setScript_params] at htparams
    have hrest : ∀ b ∈ t.script, b.allowed t.params = true := by
      rw [htscript, htparams]
      exact fun b hb => hallowed b (List.mem_cons_of_mem a hb)
    obtain ⟨u, hu, huscript, huparams⟩ := ih t hrest htscript
    have hstep : step s = .next t := (step_cons hscript).trans ht
    exact ⟨u, (run_succ_of_step hstep _).trans hu, huscript, huparams.trans htparams⟩

theorem perform_writeLEN_above {m : Word} {s : State} (h : s.params.rawCap < m.toNat) :
    perform (.writeLEN m) s = .fault .lenAboveCapacity := if_neg (Nat.not_le.mpr h)

theorem perform_writeIN_outside {i : Nat} {b : Byte} {s : State} (h : s.params.rawCap ≤ i) :
    perform (.writeIN i b) s = .fault .indexOutsideIn := if_neg (Nat.not_lt.mpr h)

/-- Settles O8: the step of the next action is `perform`, which stops on the two kinds of action HOST is not given. -/
theorem stepStopsOnlyOnForbiddenActions : Obligations.StepStopsOnlyOnForbiddenActions := by
  intro s a rest hscript
  rw [step_cons hscript]
  refine ⟨perform_next_iff_allowed a (s.setScript rest), ?_, ?_⟩
  · rintro m rfl hm
    exact perform_writeLEN_above hm
  · rintro i b rfl hi
    exact perform_writeIN_outside hi

/-- Settles O9, by reading back a write of `IN`. -/
theorem writeInChangesOneByte : Obligations.WriteInChangesOneByte := by
  intro s i b hi
  refine ⟨_, perform_writeIN hi b, ?_, fun j hj => ?_, rfl, rfl, rfl, rfl, rfl, rfl⟩
  · rw [inByte_write, if_pos rfl]
  · rw [inByte_write, if_neg hj]

theorem performAll_cons_of_perform {a : HostAction} {s t : State} (h : perform a s = .next t)
    (rest : List HostAction) : performAll (a :: rest) s = performAll rest t := by
  rw [performAll, h]

/-- What HOST has read is not part of what it reads (R33). -/
theorem readReg_pushRead (r : HostReg) (s : State) (q : ReadRecord) : readReg r (s.pushRead q) = readReg r s := by
  cases r <;> rfl

/-- Settles O13, by induction on the registers read. -/
theorem readsHaveNoSideEffect : Obligations.ReadsHaveNoSideEffect := by
  intro s regs hallowed
  induction regs generalizing s with
  | nil => rfl
  | cons r rest ih =>
    have hr : readable r s = true := (readable_eq_allowed r s).trans (hallowed r List.mem_cons_self)
    have hrest := ih (s.pushRead ⟨r, readReg r s⟩) fun q hq => hallowed q (List.mem_cons_of_mem r hq)
    rw [List.map_cons, performAll_cons_of_perform (perform_read hr), hrest]
    simp [readReg_pushRead]

/-- Settles O6: the step takes the first pending action, and an issued legal word runs its instruction. -/
theorem stepRunsTheDecodedInstruction : Obligations.StepRunsTheDecodedInstruction := by
  intro s w i hw
  have hissue : ∀ (u : State) rest, u.script = .issue w :: rest →
      step u = exec i { u with script := rest, opword := w } := fun u rest hscript => by
    rw [step_cons hscript, perform_issue, issue_legal hw]
    rfl
  refine ⟨hissue s, hissue _ s.script ?_⟩
  rw [State.withFetchWord, setScript_script, Nat.mod_eq_of_lt w.isLt, BitVec.ofNat_toNat, BitVec.setWidth_eq]

/-- Settles O10. -/
theorem writeLenSetsTheLength : Obligations.WriteLenSetsTheLength :=
  fun s _ r v => ⟨fun hm => perform_writeLEN hm, perform_writeResult r v s⟩

/-- Settles O11: a 32-bit register is read as it is, a narrower one extended by zeros. -/
theorem readsReturnTheRegisters : Obligations.ReadsReturnTheRegisters := by
  intro s
  refine ⟨rfl, rfl, fun i => ?_, ?_, rfl, rfl, ?_, fun i => ?_, ?_, ?_, rfl, rfl, ?_, rfl, ?_, ?_, ?_, rfl, rfl, ?_, ?_,
    ?_, ?_, ?_⟩ <;> exact BitVec.toNat_setWidth_of_le (by decide)

/-! ### Which results an operation leaves, and what they depend on (O17, O19) -/

/-- Settles O17, by the ways an operation can end. -/
theorem resultRegistersByOperation : Obligations.ResultRegistersByOperation := by
  intro i s t h
  rw [exec_eq, Host.Outcome.next.injEq] at h
  obtain rfl := h
  rw [setRes_res]
  have hleaves := leaves_operationResults s.params.layout (inByte s) (inputLen s) i
  generalize operationResults s.params.layout (inByte s) (inputLen s) i = r at hleaves ⊢
  have hsound := hleaves.sound
  refine ⟨fun hok => hsound.details (.inl hok), hsound.failed, ?_⟩
  cases hleaves with
  | error _ e => simp [errorResults, Results.zeroExcept]
  | checksum v => simp [Results.zeroExcept]
  | request dev cmd => simp [Results.zeroExcept]
  | frame hv _ => simp [Results.withFrame, Results.zeroExcept, hv]
  | telemetry hd L p => simp [Results.withTelemetry, Results.zeroExcept, hd]
  | both hv hd _ L p => simp [Results.withFrame, Results.withTelemetry, Results.zeroExcept, hv, hd]

section
variable {rd rd' : Nat → Byte}

/-- A 16-bit field reads no byte outside itself. -/
theorem be16_congr_of_mem_fields {L : Layout} (h : ∀ k, insideField L k → rd k = rd' k) {o : Nat}
    (ho : (o, 2) ∈ L.fields) : be16 rd o = be16 rd' o :=
  be16_congr (h o ⟨_, ho, by simp⟩) (h (o + 1) ⟨_, ho, by simp⟩)

theorem byte_congr_of_mem_fields {L : Layout} (h : ∀ k, insideField L k → rd k = rd' k) {o : Nat}
    (ho : (o, 1) ∈ L.fields) : rd o = rd' o := h o ⟨_, ho, by simp⟩

theorem bstatusField_congr {L : Layout} (h : ∀ k, insideField L k → rd k = rd' k) :
    bstatusField L rd = bstatusField L rd' := by
  have hmem : (L.bstatus, L.bstatusWidth.bytes) ∈ L.fields := by simp [Layout.fields]
  cases hw : L.bstatusWidth <;> rw [hw] at hmem <;> simp only [bstatusField, hw]
  · rw [byte_congr_of_mem_fields h hmem]
  · rw [be16_congr_of_mem_fields h hmem]

/-- The record depends on the bytes inside the twelve fields alone (R172). -/
theorem extractRecord_congr {L : Layout} (h : ∀ k, insideField L k → rd k = rd' k) :
    extractRecord L rd = extractRecord L rd' := by
  have hword : ∀ o, (o, 2) ∈ L.fields → be16 rd o = be16 rd' o := fun _ => be16_congr_of_mem_fields h
  have hbyte : ∀ o, (o, 1) ∈ L.fields → rd o = rd' o := fun _ => byte_congr_of_mem_fields h
  simp only [extractRecord, bstatusField_congr h]
  rw [hword L.vtotal, hword L.current, hword L.vcellMax, hword L.vcellMin, hword L.soc, hword L.tempMax,
    hword L.tempMin, hbyte L.relay, hbyte L.din, hword L.fault, hword L.power] <;> simp [Layout.fields]

theorem lt_payloadMin_of_insideField {L : Layout} {k : Nat} (h : insideField L k) : k < L.payloadMin := by
  obtain ⟨f, hf, -, hk⟩ := h
  exact Nat.lt_of_lt_of_le hk (field_end_le_payloadMin hf)

/-- The decoder reads no byte at or above the payload's length. -/
theorem decodePayload_congr {m : Nat} (h : ∀ k, k < m → rd k = rd' k) (L : Layout) :
    decodePayload L rd m = decodePayload L rd' m := by
  unfold decodePayload
  split
  · rfl
  · rename_i hm
    have hlong : L.payloadMin ≤ m := Nat.le_of_not_lt hm
    rw [extractRecord_congr fun k hk => h k (Nat.lt_of_lt_of_le (lt_payloadMin_of_insideField hk) hlong)]

/-- The validator reads no byte at or above the input's length (R141: the length check comes first). -/
theorem validateFrame_congr {n : Nat} (h : ∀ k, k < n → rd k = rd' k) (expected : Option Byte) :
    validateFrame rd n expected = validateFrame rd' n expected := by
  by_cases hn : n < FRAME_MIN
  · simp only [validateFrame, if_pos hn]
  · have hlong : 8 ≤ n := Nat.le_of_not_lt hn
    have hbody : slice rd 0 (n - 2) = slice rd' 0 (n - 2) := slice_congr fun k _ hk => h k (by omega)
    have hword : ∀ o, o + 1 < n → be16 rd o = be16 rd' o := fun o ho => be16_congr (h o (by omega)) (h (o + 1) ho)
    unfold validateFrame
    rw [hbody, hword 0 (by omega), hword 2 (by omega), h 0 (by omega), h 1 (by omega),
      h DEV_OFS (Nat.lt_of_lt_of_le (by decide) hlong), h CMD_OFS (Nat.lt_of_lt_of_le (by decide) hlong),
      h (n - 1) (by omega), h (n - 2) (by omega)]

/-- VDECODE reads no byte at or above the input's length: the view ends two bytes before it (R147). -/
theorem validateDecode_congr {n : Nat} (h : ∀ k, k < n → rd k = rd' k) (L : Layout) (expected : Option Byte) :
    validateDecode L rd n expected = validateDecode L rd' n expected := by
  unfold validateDecode
  rw [← validateFrame_congr h expected]
  cases hv : validateFrame rd n expected with
  | err e => rfl
  | ok v =>
    obtain ⟨hn, hview⟩ := validateFrame_ok hv
    have hpayload : ∀ k, k < v.plen → viewFrom rd v.pofs k = viewFrom rd' v.pofs k := fun k hk => by
      simp only [hview, FRAME_OVERHEAD, FRAME_MIN] at hk hn
      exact h _ (by simp only [hview, PAYLOAD_OFS]; omega)
    simp only [decodePayload_congr hpayload L]

/-- No operation reads a byte at or above the input's length (R25). -/
theorem operationResults_congr {n : Nat} (h : ∀ k, k < n → rd k = rd' k) (L : Layout) (i : Instr) :
    operationResults L rd n i = operationResults L rd' n i := by
  cases i with
  | cksum =>
    have hslice : slice rd 0 n = slice rd' 0 n := slice_congr fun k _ hk => h k hk
    simp only [operationResults, hslice]
  | build dev cmd => rfl
  | validate => simp only [operationResults, validateFrame_congr h]
  | validateC exp => simp only [operationResults, validateFrame_congr h]
  | decode => simp only [operationResults, decodePayload_congr h]
  | vdecode => simp only [operationResults, validateDecode_congr h]
  | vdecodeC exp => simp only [operationResults, validateDecode_congr h]

end

/-- An issued word leaves the same results wherever the `LAYOUT` and the input are the same (R25). -/
theorem issueResults_congr {s t : State} (hlayout : s.params.layout = t.params.layout) (hlen : s.inLen = t.inLen)
    (h : ∀ k, k < s.inLen.toNat → inByte s k = inByte t k) (w : Word) : issueResults w s = issueResults w t := by
  rcases decodeOp_cases w with ⟨i, hw⟩ | ⟨why, hw⟩ <;> simp only [issueResults, hw]
  rw [operationResults_congr (n := inputLen s) h, hlayout, inputLen, hlen, inputLen]

/-- Settles O19: the results of an issue are a function of the word, the `LAYOUT` and the input. -/
theorem resultsDependOnTheInputAlone : Obligations.ResultsDependOnTheInputAlone :=
  fun w s t hlayout hlen h => ⟨_, _, issue_eq w s, issue_eq w t, issueResults_congr hlayout hlen h w⟩

end Sys2Proof.Machine

/-! PROOF. The statements about `IN` and what an operation leaves of it (O12, O16, O20, O46), and the flag bits of a
byte (O45). HOST's writes of several bytes are said once as one update of the written bytes (`Memory.writeBytes`), the
view of a validated frame once as a fact about its results (`Results.NamesPayload`). -/

namespace Sys2Proof.Machine

open Sys2Proof.Claim

/-! ### Several writes of `IN` (O12) -/

/-- The written bytes after `IN[i..i+k) <- bytes`, one byte at a time. -/
def Memory.writeBytes (i : Nat) : List Byte → Memory → Memory
  | [], m => m
  | b :: rest, m => Memory.writeBytes (i + 1) rest (m.write i b)

/-- What `IN` reads as after `IN[i..i+k) <- bytes`: the bytes at their indices, the old contents elsewhere. -/
theorem inByte_writeBytes (s : State) (i : Nat) (bytes : List Byte) (j : Nat) :
    inByte (s.setInBuf (s.inBuf.writeBytes i bytes)) j =
      if i ≤ j then bytes[j - i]?.getD (inByte s j) else inByte s j := by
  induction bytes generalizing s i with
  | nil => simp only [List.getElem?_nil, Option.getD_none, ite_self]; rfl
  | cons b rest ih =>
    have hrest := ih (s.setInBuf (s.inBuf.write i b)) (i + 1)
    rw [inByte_write] at hrest
    refine hrest.trans ?_
    rcases Nat.lt_trichotomy j i with hlt | rfl | hgt
    · rw [if_neg (Nat.not_le.mpr (Nat.lt_succ_of_lt hlt)), if_neg hlt.ne, if_neg (Nat.not_le.mpr hlt)]
    · simp
    · have hindex : j - i = (j - (i + 1)) + 1 := by omega
      rw [if_pos (Nat.succ_le_of_lt hgt), if_neg hgt.ne', if_pos hgt.le, hindex, List.getElem?_cons_succ]

/-- The `WriteIN` actions of `LOAD` are that update of the written bytes, when every index is in `IN`. -/
theorem performAll_writeBytesFrom {s : State} {i : Nat} {bytes : List Byte}
    (h : i + bytes.length ≤ s.params.rawCap) :
    performAll (writeBytesFrom i bytes) s = .next (s.setInBuf (s.inBuf.writeBytes i bytes)) := by
  induction bytes generalizing s i with
  | nil => rfl
  | cons b rest ih =>
    rw [List.length_cons] at h
    have hi : i < s.params.rawCap := by omega
    rw [writeBytesFrom, performAll_cons_of_perform (perform_writeIN hi b), ih (by rw [setInBuf_params]; omega)]
    rfl

theorem performAll_append_of_next {as : List HostAction} {s t : State} (h : performAll as s = .next t)
    (bs : List HostAction) : performAll (as ++ bs) s = performAll bs t := by
  induction as generalizing s with
  | nil =>
    cases h
    rfl
  | cons a rest ih =>
    cases ha : perform a s with
    | next u =>
      rw [performAll_cons_of_perform ha] at h
      rw [List.cons_append, performAll_cons_of_perform ha, ih h]
    | fault f => simp [performAll, ha] at h
    | refused r => simp [performAll, ha] at h

/-- All that `LOAD` does: it writes its bytes from index 0 on, and their number to `IN_LEN` (R82). -/
theorem performAll_loadActions {s : State} {bytes : List Byte} (hcap : bytes.length ≤ s.params.rawCap)
    (hwidth : bytes.length < 2 ^ 32) :
    performAll (loadActions bytes) s =
      .next ((s.setInBuf (s.inBuf.writeBytes 0 bytes)).setInLen (BitVec.ofNat 32 bytes.length)) := by
  have hlen : (BitVec.ofNat 32 bytes.length).toNat ≤ (s.setInBuf (s.inBuf.writeBytes 0 bytes)).params.rawCap := by
    rwa [BitVec.toNat_ofNat, Nat.mod_eq_of_lt hwidth]
  rw [loadActions, performAll_append_of_next (performAll_writeBytesFrom (by omega)),
    performAll_cons_of_perform (perform_writeLEN hlen), performAll]

/-- Settles O12, by reading back the bytes `LOAD` writes. -/
theorem loadMakesTheBytesTheInput : Obligations.LoadMakesTheBytesTheInput := by
  intro s bytes hcap hwidth
  refine ⟨_, performAll_loadActions hcap hwidth, ⟨?_, fun i hi => ?_⟩, rfl, rfl, rfl, rfl, rfl, fun j hj => ?_⟩
  · rw [setInLen_inLen, BitVec.toNat_ofNat, Nat.mod_eq_of_lt hwidth]
  · rw [inByte_setInLen, inByte_writeBytes, if_pos (Nat.zero_le i), Nat.sub_zero, List.getElem?_eq_getElem hi,
      Option.getD_some]
  · rw [inByte_setInLen, inByte_writeBytes, if_pos (Nat.zero_le j), Nat.sub_zero, List.getElem?_eq_none hj,
      Option.getD_none]

/-! ### What an operation leaves of the rest of the state (O16, O20) -/

theorem onlyResultsDiffer_setRes (s : State) (q : Results) : onlyResultsDiffer s (s.setRes q) :=
  ⟨rfl, rfl, rfl, rfl, rfl, rfl, rfl, fun i => inByte_setRes s q i⟩

/-- Settles O16: an operation and an issue replace the result state, an issue `OPWORD` besides. -/
theorem operationsWriteOnlyResults : Obligations.OperationsWriteOnlyResults :=
  ⟨fun i s => ⟨_, exec_eq i s, onlyResultsDiffer_setRes s _⟩,
    fun w s => ⟨_, issue_eq w s, onlyResultsDiffer_setRes (s.setOpword w) _⟩⟩

/-- Settles O20: the first issue leaves the parameters and the input, on which alone the second's results depend. -/
theorem operationsAreIdempotent : Obligations.OperationsAreIdempotent := by
  intro w s t u h hparams hlen hbytes
  rw [issue_eq, Host.Outcome.next.injEq] at h
  obtain rfl := h
  have hinput : ∀ i, i < u.inLen.toNat → inByte u i = inByte s i := fun i hi => hbytes i (hlen ▸ hi)
  have hlayout : u.params.layout = s.params.layout := congrArg Params.layout hparams
  exact ⟨fun _ => rfl, _, issue_eq w u, issueResults_congr hlayout hlen hinput w⟩

/-! ### The payload view (O46) -/

/-- The view of a validated frame of `n` bytes: all but the six bytes before the payload and the two after it (R147). -/
def Results.NamesPayload (r : Results) (n : Nat) : Prop :=
  FRAME_MIN ≤ n ∧ r.vfPofs = BitVec.ofNat 32 PAYLOAD_OFS ∧ r.vfPlen = BitVec.ofNat 32 (n - FRAME_OVERHEAD)

/-- Results with `STATUS = OK` come from no error. -/
theorem Res.eq_ok_of_results_status {α : Type} {write : α → Results → Results} {r : Res α}
    (h : (r.results write).status = STATUS_OK) : ∃ v, r = .ok v := by
  cases r with
  | ok v => exact ⟨v, rfl⟩
  | err e => exact absurd h (code_ne_ok e.kind)

theorem withFrame_namesPayload {rd : Nat → Byte} {n : Nat} {expected : Option Byte} {v : ValidatedFrame}
    (h : validateFrame rd n expected = .ok v) (r : Results) : (r.withFrame v).NamesPayload n := by
  obtain ⟨hn, rfl⟩ := validateFrame_ok h
  exact ⟨hn, rfl, rfl⟩

theorem validateFrame_results_namesPayload {rd : Nat → Byte} {n : Nat} {expected : Option Byte}
    (hok : ((validateFrame rd n expected).results Results.withFrame).status = STATUS_OK) :
    ((validateFrame rd n expected).results Results.withFrame).NamesPayload n := by
  obtain ⟨v, h⟩ := Res.eq_ok_of_results_status hok
  rw [h, Res.results]
  exact withFrame_namesPayload h _

theorem validateDecode_results_namesPayload {L : Layout} {rd : Nat → Byte} {n : Nat} {expected : Option Byte}
    (hok : ((validateDecode L rd n expected).results Results.withFrameAndTelemetry).status = STATUS_OK) :
    ((validateDecode L rd n expected).results Results.withFrameAndTelemetry).NamesPayload n := by
  obtain ⟨⟨v, t⟩, h⟩ := Res.eq_ok_of_results_status hok
  obtain ⟨hframe, -⟩ := validateDecode_ok h
  rw [h, Res.results]
  exact withFrame_namesPayload hframe (Results.zeroExcept STATUS_OK)

/-- Every operation that validates and succeeds leaves the view of its frame's payload. -/
theorem operationResults_namesPayload {L : Layout} {rd : Nat → Byte} {n : Nat} {op : Instr}
    (hv : validates op = true) (hok : (operationResults L rd n op).status = STATUS_OK) :
    (operationResults L rd n op).NamesPayload n := by
  cases op with
  | cksum | build | decode => cases hv
  | validate | validateC => exact validateFrame_results_namesPayload hok
  | vdecode | vdecodeC => exact validateDecode_results_namesPayload hok

/-- A payload view ends two bytes before the frame does, whose length is a 32-bit number. -/
theorem Results.NamesPayload.end_add_two {r : Results} {n : Word} (h : r.NamesPayload n.toNat) :
    r.vfPofs.toNat + r.vfPlen.toNat + 2 = n.toNat := by
  obtain ⟨hn, hofs, hlen⟩ := h
  have hlt := n.isLt
  rw [hofs, hlen, BitVec.toNat_ofNat, BitVec.toNat_ofNat]
  simp only [FRAME_MIN, PAYLOAD_OFS, FRAME_OVERHEAD] at hn ⊢
  omega

/-- Settles O46: a validation leaves `IN` and the view of its frame, and a write of `IN` leaves the results. -/
theorem viewNamesTheBytesOfInAsTheyAreNow : Obligations.ViewNamesTheBytesOfInAsTheyAreNow := by
  intro op s t i b hv h hok hi
  rw [exec_eq, Host.Outcome.next.injEq] at h
  obtain rfl := h
  have hview := operationResults_namesPayload hv hok
  refine ⟨_, perform_writeIN (by rwa [setRes_params]) b, rfl, hview.end_add_two, fun k _ => ?_⟩
  rw [inByte_write, inByte_setRes, setInBuf_res]

/-! ### The flags of a byte (O45) -/

/-- Settles O45: a flag is a bit of the byte's number. -/
theorem flagsAreBitsLeastSignificantFirst : Obligations.FlagsAreBitsLeastSignificantFirst := by
  refine ⟨fun b k hk => ?_, by decide⟩
  rw [flags, List.getElem?_map, List.getElem?_range hk, Option.map_some, flag, BitVec.getLsbD,
    Nat.testBit_eq_decide_div_mod_eq]

end Sys2Proof.Machine

/-! PROOF. The statements about the operation word (O1 to O5). The decoder and the encoder are inverse; the words of
R71's table are then the instructions' words, row by row, and the illegal words those the decoder rejects. -/

namespace Sys2Proof

open Sys2Proof.Machine Sys2Proof.Claim

/-! ### The decoder and the encoder are inverse (O1 to O3) -/

/-- No instruction's word has an operand its row leaves unused (R71). -/
theorem unusedOperandSet_encode (i : Instr) : unusedOperandSet (encode i) = false := by
  cases i <;> simp [unusedOperandSet, Instr.opcode, Instr.operandA, Instr.operandB]

theorem decodeOp_encode (i : Instr) : decodeOp (encode i) = .instr i := by
  have hreserved : (!(rsv1Field (encode i) == 0#8 && rsv0Field (encode i) == 0#4)) = false := by simp
  rw [decodeOp, hreserved, unusedOperandSet_encode]
  cases i <;> simp [Instr.opcode, Instr.operandA, Instr.operandB]

/-- Settles O2: the word passes the decoder's tests, and its opcode and operands select the instruction. -/
theorem decodeOfEncodeIsIdentity : Obligations.DecodeOfEncodeIsIdentity := decodeOp_encode

/-- A word whose five fields are an instruction's is the instruction's word. -/
theorem encode_eq_of_fields {i : Instr} {w : Word} (hr : rsv1Field w = 0#8) (hz : rsv0Field w = 0#4)
    (hop : opField w = i.opcode) (ha : aField w = i.operandA) (hb : bField w = i.operandB) : encode i = w := by
  rw [encode, ← hr, ← ha, ← hb, ← hz, ← hop, word_eq_fields]

theorem decodeOp_eq_instr_iff {w : Word} {i : Instr} : decodeOp w = .instr i ↔ encode i = w := by
  constructor
  · intro h
    obtain ⟨hr, hz, hop, ha, hb⟩ := decodeOp_fields h
    exact encode_eq_of_fields hr hz hop ha hb
  · rintro rfl
    exact decodeOp_encode i

/-- Settles O3: the five fields of a word that decodes are those of the instruction's word. -/
theorem encodeOfDecodeIsIdentity : Obligations.EncodeOfDecodeIsIdentity := fun _ _ => decodeOp_eq_instr_iff.mp

/-- Settles O1: the seven words are the encodings of the seven instructions. -/
theorem tableWordsDecode : Obligations.TableWordsDecode :=
  ⟨decodeOp_encode .cksum, decodeOp_encode (.build 1#8 3#8), decodeOp_encode .validate,
    decodeOp_encode (.validateC 4#8), decodeOp_encode .decode, decodeOp_encode .vdecode,
    decodeOp_encode (.vdecodeC 3#8)⟩

/-! ### Which words are legal (O4) -/

theorem fields_inj {r a b r' a' b' : Byte} {z op z' op' : BitVec 4} :
    (r ++ a ++ b ++ z ++ op : Word) = r' ++ a' ++ b' ++ z' ++ op' ↔
      r = r' ∧ a = a' ∧ b = b' ∧ z = z' ∧ op = op' := by
  constructor
  · intro h
    refine ⟨?_, ?_, ?_, ?_, ?_⟩
    · rw [← rsv1Field_append r a b z op, h, rsv1Field_append]
    · rw [← aField_append r a b z op, h, aField_append]
    · rw [← bField_append r a b z op, h, bField_append]
    · rw [← rsv0Field_append r a b z op, h, rsv0Field_append]
    · rw [← opField_append r a b z op, h, opField_append]
  · rintro ⟨rfl, rfl, rfl, rfl, rfl⟩
    rfl

/-- A row whose mask covers whole fields is a condition field by field (R70, R71). -/
theorem fits_fields_iff {mr ma mb r a b : Byte} {mz mop z op : BitVec 4} {w : Word} :
    OpRow.fits ⟨mr ++ ma ++ mb ++ mz ++ mop, r ++ a ++ b ++ z ++ op⟩ w = true ↔
      rsv1Field w &&& mr = r ∧ aField w &&& ma = a ∧ bField w &&& mb = b ∧ rsv0Field w &&& mz = z ∧
        opField w &&& mop = op := by
  rw [OpRow.fits, beq_iff_eq]
  conv_lhs => rw [← word_eq_fields w]
  rw [BitVec.and_append, BitVec.and_append, BitVec.and_append, BitVec.and_append, fields_inj]

/-- A row with no operand is fitted by its instruction's word alone. -/
theorem fits_word_iff {bits w : Word} : OpRow.fits ⟨0xFFFFFFFF#32, bits⟩ w = true ↔ bits = w := by
  have hmask : (0xFFFFFFFF#32 : Word) = BitVec.allOnes 32 := by decide
  rw [OpRow.fits, beq_iff_eq, hmask, BitVec.and_allOnes, eq_comm]

theorem and_allOnes_byte (x : Byte) : x &&& 0xFF#8 = x := BitVec.and_allOnes

theorem and_allOnes_nibble (x : BitVec 4) : x &&& 0xF#4 = x := BitVec.and_allOnes

/-- The row of BUILD is fitted by its words alone. -/
theorem fits_build_iff {w : Word} :
    OpRow.fits ⟨0xFF0000FF#32, 0x00000002#32⟩ w = true ↔ ∃ dev cmd, encode (.build dev cmd) = w := by
  have h := fits_fields_iff (w := w) (mr := 0xFF#8) (ma := 0x00#8) (mb := 0x00#8) (mz := 0xF#4) (mop := 0xF#4)
    (r := 0#8) (a := 0#8) (b := 0#8) (z := 0#4) (op := 2#4)
  refine h.trans ?_
  simp only [and_allOnes_byte, and_allOnes_nibble, BitVec.and_zero, true_and]
  constructor
  · rintro ⟨hr, hz, hop⟩
    exact ⟨aField w, bField w, encode_eq_of_fields hr hz hop rfl rfl⟩
  · rintro ⟨dev, cmd, rfl⟩
    simp [Instr.opcode]

/-- The row of an operation with the one operand `exp` is fitted by that operation's words alone. -/
theorem fits_operandB_iff {f : Byte → Instr} {op : BitVec 4}
    (hf : ∀ exp, encode (f exp) = 0#8 ++ 0#8 ++ exp ++ 0#4 ++ op) {w : Word} :
    OpRow.fits ⟨0xFFFF00FF#32, 0#8 ++ 0#8 ++ 0#8 ++ 0#4 ++ op⟩ w = true ↔ ∃ exp, encode (f exp) = w := by
  have h := fits_fields_iff (w := w) (mr := 0xFF#8) (ma := 0xFF#8) (mb := 0x00#8) (mz := 0xF#4) (mop := 0xF#4)
    (r := 0#8) (a := 0#8) (b := 0#8) (z := 0#4) (op := op)
  refine h.trans ?_
  simp only [and_allOnes_byte, and_allOnes_nibble, BitVec.and_zero, true_and]
  constructor
  · rintro ⟨hr, ha, hz, hop⟩
    refine ⟨bField w, ?_⟩
    rw [hf, ← hop]
    conv_rhs => rw [← word_eq_fields w, hr, ha, hz]
  · rintro ⟨exp, rfl⟩
    rw [hf, rsv1Field_append, aField_append, rsv0Field_append, opField_append]
    simp

/-- An instruction with a property is one of the seven operations with it. -/
theorem Instr.exists_iff {p : Instr → Prop} :
    (∃ i, p i) ↔ p .cksum ∨ (∃ dev cmd, p (.build dev cmd)) ∨ p .validate ∨ (∃ exp, p (.validateC exp)) ∨
      p .decode ∨ p .vdecode ∨ ∃ exp, p (.vdecodeC exp) := by
  constructor
  · rintro ⟨i, h⟩
    cases i <;> grind
  · rintro (h | ⟨dev, cmd, h⟩ | h | ⟨exp, h⟩ | h | h | ⟨exp, h⟩) <;> exact ⟨_, h⟩

/-- The words of R71's table are the instructions' words, row by row. -/
theorem wordLegal_iff_exists_encode {w : Word} : wordLegal w = true ↔ ∃ i, encode i = w := by
  have hvalidateC := fits_operandB_iff (f := .validateC) (op := 4#4) (fun _ => rfl) (w := w)
  have hvdecodeC := fits_operandB_iff (f := .vdecodeC) (op := 7#4) (fun _ => rfl) (w := w)
  rw [Instr.exists_iff, wordLegal, opRows]
  simp only [List.any_cons, List.any_nil, Bool.or_false, Bool.or_eq_true]
  exact or_congr fits_word_iff <| or_congr fits_build_iff <| or_congr fits_word_iff <|
    or_congr hvalidateC <| or_congr fits_word_iff <| or_congr fits_word_iff hvdecodeC

/-- The second of R73's kinds: a non-zero operand field where R71 requires 0. -/
theorem unusedOperandSet_iff {w : Word} : unusedOperandSet w = true ↔
    (((opField w).toNat = 1 ∨ (opField w).toNat = 3 ∨ (opField w).toNat = 5 ∨ (opField w).toNat = 6) ∧
      (aField w ≠ 0#8 ∨ bField w ≠ 0#8)) ∨
    (((opField w).toNat = 4 ∨ (opField w).toNat = 7) ∧ aField w ≠ 0#8) := by
  unfold unusedOperandSet
  split <;> simp_all

/-- R73's three kinds in the order of R74's tests: reserved fields, unused operands, opcode. -/
theorem illegalWord_iff {w : Word} :
    illegalWord w ↔ (rsv1Field w ≠ 0#8 ∨ rsv0Field w ≠ 0#4) ∨ unusedOperandSet w = true ∨
      (opField w).toNat = 0 ∨ 8 ≤ (opField w).toNat := by
  rw [unusedOperandSet_iff]
  simp only [ne_eq, ← BitVec.toNat_inj, illegalWord, ← opField_toNat, ← rsv0Field_toNat, ← bField_toNat, ← aField_toNat,
    ← rsv1Field_toNat, BitVec.toNat_ofNat, Nat.zero_mod]
  tauto

/-- The decoder rejects exactly the words R73 lists: its tests are R73's kinds, in order (R74). -/
theorem illegalWord_iff_decodeOp {w : Word} : illegalWord w ↔ ∃ why, decodeOp w = .illegal why := by
  rw [illegalWord_iff, decodeOp]
  split
  next hreserved => simp_all
  next hreserved =>
    split
    next hunused => simp [hunused]
    next hunused =>
      split <;> simp_all
      omega

/-- Settles O4: the table's words are the instructions' words, and every other word the decoder rejects. -/
theorem decoderAcceptsExactlyTheTableRows : Obligations.DecoderAcceptsExactlyTheTableRows := by
  intro w
  have hlegal : wordLegal w = true ↔ ∃ i, decodeOp w = .instr i := by
    simp only [wordLegal_iff_exists_encode, decodeOp_eq_instr_iff]
  refine ⟨hlegal, ?_⟩
  rw [illegalWord_iff_decodeOp, ← Bool.not_eq_true, hlegal]
  rcases decodeOp_cases w with ⟨i, hw⟩ | ⟨why, hw⟩ <;> simp [hw]

end Sys2Proof

namespace Sys2Proof.Machine

open Sys2Proof.Claim

/-! ### What an illegal word ends in (O5) -/

theorem validateFrame_err_ne_illegalOp {rd : Nat → Byte} {n : Nat} {expected : Option Byte} {e : Report}
    (h : validateFrame rd n expected = .err e) : e.kind ≠ .illegalOp := by
  unfold validateFrame at h
  repeat' split at h
  all_goals cases h
  all_goals exact ErrorKind.noConfusion

theorem decodePayload_err_ne_illegalOp {L : Layout} {p : Nat → Byte} {m : Nat} {e : Report}
    (h : decodePayload L p m = .err e) : e.kind ≠ .illegalOp := by
  unfold decodePayload at h
  split at h <;> cases h
  exact ErrorKind.noConfusion

theorem validateDecode_err_ne_illegalOp {L : Layout} {rd : Nat → Byte} {n : Nat} {expected : Option Byte} {e : Report}
    (h : validateDecode L rd n expected = .err e) : e.kind ≠ .illegalOp := by
  unfold validateDecode at h
  split at h
  next hv =>
    cases h
    exact validateFrame_err_ne_illegalOp hv
  next =>
    split at h
    next hd =>
      cases h
      exact decodePayload_err_ne_illegalOp hd
    next => cases h

theorem eq_illegalOp_of_code {k : ErrorKind} : k.code = ErrorKind.illegalOp.code → k = .illegalOp := by
  cases k <;> decide

/-- Results with the code of `IllegalOp` come from that error. -/
theorem Res.eq_illegalOp_of_results_status {α : Type} {write : α → Results → Results} {r : Res α}
    (h : (r.results write).status = ErrorKind.illegalOp.code) (hwrite : ∀ v q, (write v q).status = q.status) :
    ∃ e, r = .err e ∧ e.kind = .illegalOp := by
  cases r with
  | ok v =>
    rw [Res.results, hwrite] at h
    exact absurd h.symm (code_ne_ok .illegalOp)
  | err e => exact ⟨e, rfl, eq_illegalOp_of_code h⟩

/-- No operation of R71 raises `IllegalOp`: an illegal word alone does (R219). -/
theorem operationResults_status_ne_illegalOp (L : Layout) (rd : Nat → Byte) (n : Nat) (i : Instr) :
    (operationResults L rd n i).status ≠ ErrorKind.illegalOp.code := by
  intro h
  cases i with
  | cksum | build => exact absurd h.symm (code_ne_ok .illegalOp)
  | validate | validateC =>
    rw [operationResults] at h
    obtain ⟨e, he, hkind⟩ := Res.eq_illegalOp_of_results_status h fun _ _ => rfl
    exact validateFrame_err_ne_illegalOp he hkind
  | decode =>
    rw [operationResults] at h
    obtain ⟨e, he, hkind⟩ := Res.eq_illegalOp_of_results_status h fun _ _ => rfl
    exact decodePayload_err_ne_illegalOp he hkind
  | vdecode | vdecodeC =>
    rw [operationResults] at h
    obtain ⟨e, he, hkind⟩ := Res.eq_illegalOp_of_results_status h fun _ _ => rfl
    exact validateDecode_err_ne_illegalOp he hkind

/-- Settles O5: an illegal word is one the decoder rejects; any other runs an operation, which raises no `IllegalOp`. -/
theorem illegalWordEndsInIllegalOp : Obligations.IllegalWordEndsInIllegalOp := by
  intro w s
  constructor
  · intro h
    obtain ⟨why, hw⟩ := illegalWord_iff_decodeOp.mp h
    rw [issue_illegal hw, raise_eq_errorResults, errorResults, BitVec.ofNat_toNat, BitVec.setWidth_eq]
    rfl
  · intro h
    rw [illegalWord_iff_decodeOp] at h
    obtain ⟨i, hw⟩ := (decodeOp_cases w).resolve_right h
    rw [issue_legal hw, exec_eq]
    exact ⟨_, rfl, operationResults_status_ne_illegalOp _ _ _ i⟩

end Sys2Proof.Machine

/-! PROOF. The statements about encoded byte sequences (O32, O44) and the assembler (O47, O48). The input of an operation
is read as one list (`holdsInput_iff_slice_eq`); the checks of the validator are then the equations of R76's frame, byte by
byte. What a mnemonic assembles to is said once, mnemonic by mnemonic. -/

namespace Sys2Proof.Machine

open Sys2Proof.Claim

/-! ### The input as a list -/

theorem holdsInput_iff_slice_eq {s : State} {l : List Byte} :
    holdsInput s l ↔ slice (inByte s) 0 (inputLen s) = l := by
  constructor
  · rintro ⟨hlen, hbytes⟩
    refine List.ext_getElem (by simp [inputLen, hlen]) fun i _ hi => ?_
    simp [slice, hbytes i hi]
  · rintro rfl
    exact ⟨by simp [inputLen], fun i _ => by simp [slice]⟩

/-- A slice from index 0 is one from index `i` after the bytes before it. -/
theorem slice_eq_append (rd : Nat → Byte) {i j : Nat} (h : i ≤ j) : slice rd 0 j = slice rd 0 i ++ slice rd i j := by
  obtain ⟨k, rfl⟩ := Nat.exists_eq_add_of_le h
  simp [slice, List.range_add]

/-- A big-endian field holds a 16-bit number exactly when its two bytes are the number's (R51). -/
theorem be16_eq_iff {rd : Nat → Byte} {o k : Nat} (hk : k < 65536) :
    be16 rd o = k ↔ rd o = BitVec.ofNat 8 (k / 256) ∧ rd (o + 1) = BitVec.ofNat 8 k := by
  have h0 := (rd o).isLt
  have h1 := (rd (o + 1)).isLt
  rw [← BitVec.toNat_inj, ← BitVec.toNat_inj, BitVec.toNat_ofNat, BitVec.toNat_ofNat, be16]
  omega

/-! ### The well-formed frames (O32) -/

theorem cksum8_eq_ofNat (l : List Byte) : cksum8 l = BitVec.ofNat 8 (l.map BitVec.toNat).sum := by
  apply BitVec.eq_of_toNat_eq
  rw [cksum8_toNat, BitVec.toNat_ofNat, byteSum]

/-- A check lets a validation succeed exactly when it does not fail. -/
theorem ite_err_isOk_iff {α : Type} {c : Prop} [Decidable c] {e : Report} {r : Res α} :
    (∃ v, (if c then .err e else r) = .ok v) ↔ ¬ c ∧ ∃ v, r = .ok v := by
  split <;> simp [*]

/-- VALIDATE succeeds exactly when the checks R141 to R145 all hold. -/
theorem validateFrame_none_isOk_iff {rd : Nat → Byte} {n : Nat} :
    (∃ v, validateFrame rd n none = .ok v) ↔
      8 ≤ n ∧ (rd 0 = 0xAA#8 ∧ rd 1 = 0x55#8) ∧ rd (n - 1) = 0x68#8 ∧ be16 rd 2 = n - 4 ∧
        rd (n - 2) = cksum8 (slice rd 0 (n - 2)) := by
  simp only [validateFrame, ite_err_isOk_iff, not_lt, not_or, not_not, Res.ok.injEq, exists_eq', and_true]
  rfl

theorem responseFrame_length (dev cmd : Byte) (payload : List Byte) :
    (responseFrame dev cmd payload).length = payload.length + 8 := by
  simp [responseFrame, frameHead]

section
variable {rd : Nat → Byte} {n : Nat} {dev cmd : Byte} {payload : List Byte}

/-- What a frame holds before its checksum, byte by byte (R76). -/
theorem slice_eq_frameHead_iff (hn : 6 ≤ n) :
    slice rd 0 n = frameHead dev cmd payload ↔
      rd 0 = 0xAA#8 ∧ rd 1 = 0x55#8 ∧ rd 2 = BitVec.ofNat 8 ((payload.length + 4) / 256) ∧
        rd 3 = BitVec.ofNat 8 (payload.length + 4) ∧ rd 4 = dev ∧ rd 5 = cmd ∧ slice rd 6 n = payload := by
  have hfixed : slice rd 0 6 = [rd 0, rd 1, rd 2, rd 3, rd 4, rd 5] := rfl
  rw [slice_eq_append rd hn, hfixed, frameHead]
  simp

/-- A frame is its head, the head's checksum and the end marker (R76). -/
theorem slice_eq_responseFrame_iff (hn : 2 ≤ n) :
    slice rd 0 n = responseFrame dev cmd payload ↔
      slice rd 0 (n - 2) = frameHead dev cmd payload ∧ rd (n - 2) = cksum8 (slice rd 0 (n - 2)) ∧
        rd (n - 1) = 0x68#8 := by
  have htail : slice rd (n - 2) n = [rd (n - 2), rd (n - 1)] := by
    obtain ⟨k, rfl⟩ := Nat.exists_eq_add_of_le' hn
    simp [slice, List.range_succ]
  rw [slice_eq_append rd (Nat.sub_le n 2), htail, responseFrame, ← cksum8_eq_ofNat]
  constructor
  · intro h
    obtain ⟨hhead, hlast⟩ := List.append_inj' h rfl
    rw [List.cons.injEq, List.cons.injEq] at hlast
    exact ⟨hhead, hhead ▸ hlast.1, hlast.2.1⟩
  · rintro ⟨hhead, hck, hend⟩
    rw [hck, hend, hhead]

theorem length_of_slice_eq_responseFrame (h : slice rd 0 n = responseFrame dev cmd payload) :
    n = payload.length + 8 := by
  rw [← responseFrame_length dev cmd payload, ← h, slice_length, Nat.sub_zero]

/-- The payload of a frame starts at byte 6 (R76, R147). -/
theorem payload_getElem_of_slice_eq_responseFrame (h : slice rd 0 n = responseFrame dev cmd payload) {k : Nat}
    (hk : k < payload.length) : rd (6 + k) = payload[k] := by
  have hn := length_of_slice_eq_responseFrame h
  obtain ⟨hhead, -, -⟩ := (slice_eq_responseFrame_iff (by omega)).mp h
  obtain ⟨-, -, -, -, -, -, rfl⟩ := (slice_eq_frameHead_iff (by omega)).mp hhead
  simp [slice]

/-- A well-formed frame passes every check, and its device, command and payload are what VALIDATE reports (R147). -/
theorem validateFrame_of_slice_eq_responseFrame (hp : payload.length ≤ 65531)
    (h : slice rd 0 n = responseFrame dev cmd payload) :
    validateFrame rd n none = .ok ⟨dev, cmd, 6, payload.length⟩ := by
  have hn := length_of_slice_eq_responseFrame h
  obtain ⟨hhead, hck, hend⟩ := (slice_eq_responseFrame_iff (by omega)).mp h
  obtain ⟨h0, h1, h2, h3, hdev, hcmd, -⟩ := (slice_eq_frameHead_iff (by omega)).mp hhead
  have hlen : be16 rd 2 = n - 4 := by
    rw [be16_eq_iff (by omega), h2, h3, hn]
    exact ⟨rfl, rfl⟩
  obtain ⟨v, hv⟩ := validateFrame_none_isOk_iff.mpr ⟨by omega, ⟨h0, h1⟩, hend, hlen, hck⟩
  rw [hv, (validateFrame_ok hv).2, ← hdev, ← hcmd, hn]
  rfl

/-- An input that passes every check is a well-formed frame (R76). -/
theorem exists_responseFrame_of_validateFrame {v : ValidatedFrame} (h : validateFrame rd n none = .ok v) :
    ∃ dev cmd payload, payload.length ≤ 65531 ∧ slice rd 0 n = responseFrame dev cmd payload := by
  obtain ⟨hn, ⟨h0, h1⟩, hend, hlen, hck⟩ := validateFrame_none_isOk_iff.mp ⟨v, h⟩
  have hfits := be16_lt rd 2
  have hpayload : (slice rd 6 (n - 2)).length + 4 = n - 4 := by
    rw [slice_length]
    omega
  obtain ⟨h2, h3⟩ := (be16_eq_iff (by omega)).mp hlen
  have hhead : slice rd 0 (n - 2) = frameHead (rd 4) (rd 5) (slice rd 6 (n - 2)) := by
    rw [slice_eq_frameHead_iff (by omega), hpayload]
    exact ⟨h0, h1, h2, h3, rfl, rfl, rfl⟩
  exact ⟨rd 4, rd 5, slice rd 6 (n - 2), by omega, (slice_eq_responseFrame_iff (by omega)).mpr ⟨hhead, hck, hend⟩⟩

end

/-- Settles O32: the checks of the validator are the equations of a frame, byte by byte. -/
theorem validationAcceptsExactlyWellFormedFrames : Obligations.ValidationAcceptsExactlyWellFormedFrames := by
  intro s
  refine ⟨_, exec_eq .validate s, ⟨fun hok => ?_, ?_⟩, ?_⟩
  · obtain ⟨v, hv⟩ := Res.eq_ok_of_results_status (write := Results.withFrame) hok
    simpa only [holdsInput_iff_slice_eq] using exists_responseFrame_of_validateFrame hv
  · rintro ⟨dev, cmd, payload, hp, hinput⟩
    rw [setRes_res, operationResults,
      validateFrame_of_slice_eq_responseFrame hp (holdsInput_iff_slice_eq.mp hinput)]
    rfl
  · intro dev cmd payload hp hinput
    have hframe := holdsInput_iff_slice_eq.mp hinput
    rw [setRes_res, operationResults, validateFrame_of_slice_eq_responseFrame hp hframe]
    refine ⟨rfl, rfl, rfl, Nat.mod_eq_of_lt (Nat.lt_of_le_of_lt hp (by decide)), fun k hk => ?_⟩
    exact payload_getElem_of_slice_eq_responseFrame hframe hk

/-! ### The payload written field by field (O44) -/

/-- The two bytes of a 16-bit number, the more significant first, make the number (R51). -/
theorem bytes16_toNat (v : BitVec 16) : (v.extractLsb' 8 8).toNat * 256 + (v.extractLsb' 0 8).toNat = v.toNat := by
  have := v.isLt
  rw [BitVec.extractLsb'_toNat, BitVec.extractLsb'_toNat, Nat.shiftRight_eq_div_pow]
  omega

section
variable {vtotal current vcellMax vcellMin soc tempMax tempMin : BitVec 16} {relay din : Byte}
  {bstatus fault power : BitVec 16}

/-- The record of a payload written field by field holds the fields, less their biases (R79, R186). -/
theorem extractRecord_of_slice_eq_payloadOf {rd : Nat → Byte}
    (h : slice rd 0 22 =
      payloadOf vtotal current vcellMax vcellMin soc tempMax tempMin relay din bstatus fault power) :
    extractRecord LAYOUT_REF rd =
      { vtotal := vtotal.toNat, current := (current.toNat : Int) - 16000, vcellMax := vcellMax.toNat,
        vcellMin := vcellMin.toNat, soc := soc.toNat, tempMax := (tempMax.toNat : Int) - 400,
        tempMin := (tempMin.toNat : Int) - 400, relay := relay, din := din, bstatus := bstatus.toNat,
        fault := fault.toNat, power := power.toNat } := by
  simp only [slice, List.range_succ, List.range_zero, payloadOf, bytes16, List.map_cons, List.map_nil,
    List.nil_append, List.cons_append, List.cons.injEq, Nat.zero_add] at h
  simp only [extractRecord, bstatusField, LAYOUT_REF, be16, Nat.reduceAdd, h, bytes16_toNat]
  rfl

end

/-- A 16-bit number less a bias keeps its exact value as 32-bit two's complement (R10). -/
theorem toInt_ofInt_toNat_sub (v : BitVec 16) {bias : Int} (h0 : 0 ≤ bias) (h1 : bias ≤ 65535) :
    (BitVec.ofInt 32 ((v.toNat : Int) - bias)).toInt = (v.toNat : Int) - bias := by
  have h := v.isLt
  rw [BitVec.toInt_ofInt, Int.bmod_eq_of_le] <;> omega

/-- Settles O44: the payload is long enough, and every field is read back from its own bytes. -/
theorem decodeRecoversEncodedFields : Obligations.DecodeRecoversEncodedFields := by
  intro s vtotal current vcellMax vcellMin soc tempMax tempMin relay din bstatus fault power hlayout hinput
  have hlen : inputLen s = 22 := hinput.1
  rw [holdsInput_iff_slice_eq, hlen] at hinput
  have hmin : ¬ 22 < LAYOUT_REF.payloadMin := by decide
  refine ⟨_, exec_eq .decode s, ?_⟩
  rw [setRes_res, operationResults, hlayout, hlen, decodePayload, if_neg hmin, Res.results,
    extractRecord_of_slice_eq_payloadOf hinput]
  have hword : ∀ v : BitVec 16, BitVec.ofNat 16 v.toNat = v := fun v => by rw [BitVec.ofNat_toNat, BitVec.setWidth_eq]
  have hcurrent := toInt_ofInt_toNat_sub current (bias := 16000) (by decide) (by decide)
  have htemp := fun v => toInt_ofInt_toNat_sub v (bias := 400) (by decide) (by decide)
  exact ⟨rfl, hword vtotal, hcurrent, hword vcellMax, hword vcellMin, hword soc, htemp tempMax, htemp tempMin, rfl, rfl,
    hword bstatus, hword fault, hword power⟩

/-! ### The assembler (O47, O48) -/

/-- The word of an instruction as a number: `A` from bit 16, `B` from bit 8, the opcode (R70, R71). -/
theorem encode_eq_ofNat (i : Instr) :
    encode i = BitVec.ofNat 32 (i.operandA.toNat * 65536 + i.operandB.toNat * 256 + i.opcode.toNat) := by
  apply BitVec.eq_of_toNat_eq
  have ha := i.operandA.isLt
  have hb := i.operandB.isLt
  have hop := i.opcode.isLt
  simp only [encode, fields_toNat, BitVec.toNat_ofNat]
  omega

section
variable (cmdInfo : Option Byte) (a b : Nat)

theorem assemble_build : assemble cmdInfo ⟨.build, [a, b]⟩ =
    if a ≤ 255 ∧ b ≤ 255 then some (.build (BitVec.ofNat 8 a) (BitVec.ofNat 8 b)) else none := by
  by_cases h : a ≤ 255 ∧ b ≤ 255 <;> simp [assemble, AsmLine.wf, Mnemonic.arity, h]

theorem assemble_validateC : assemble cmdInfo ⟨.validateC, [a]⟩ =
    if a ≤ 255 then some (.validateC (BitVec.ofNat 8 a)) else none := by
  by_cases h : a ≤ 255 <;> simp [assemble, AsmLine.wf, Mnemonic.arity, h]

theorem assemble_vdecodeC : assemble cmdInfo ⟨.vdecodeC, [a]⟩ =
    if a ≤ 255 then some (.vdecodeC (BitVec.ofNat 8 a)) else none := by
  by_cases h : a ≤ 255 <;> simp [assemble, AsmLine.wf, Mnemonic.arity, h]

theorem assemble_buildInfo : assemble cmdInfo ⟨.buildInfo, [a]⟩ =
    if a ≤ 255 then cmdInfo.map (.build (BitVec.ofNat 8 a)) else none := by
  by_cases h : a ≤ 255 <;> cases cmdInfo <;> simp [assemble, AsmLine.wf, Mnemonic.arity, h]

theorem assemble_validateInfo : assemble cmdInfo ⟨.validateInfo, []⟩ = cmdInfo.map .validateC := by
  cases cmdInfo <;> rfl

theorem assemble_readInfo : assemble cmdInfo ⟨.readInfo, []⟩ = cmdInfo.map .vdecodeC := by
  cases cmdInfo <;> rfl

end

theorem byte_toNat_le (c : Byte) : c.toNat ≤ 255 := Nat.le_of_lt_succ c.isLt

/-- Settles O47: a pseudo-instruction has the byte `CMD_INFO` where its expansion has the operand (R83). -/
theorem pseudoInstructionsExpandWithCmdInfo : Obligations.PseudoInstructionsExpandWithCmdInfo := by
  intro c dev
  simp [assemble_buildInfo, assemble_validateInfo, assemble_readInfo, assemble_build, assemble_validateC,
    assemble_vdecodeC, byte_toNat_le]

/-- Settles O48: an operand in range is its own byte, so the word's number is the one R71 gives. -/
theorem operandsOutsideAByteDoNotAssemble : Obligations.OperandsOutsideAByteDoNotAssemble := by
  intro cmdInfo a b
  have hbyte : ∀ {x : Nat}, x ≤ 255 → (BitVec.ofNat 8 x).toNat = x := fun hx =>
    Nat.mod_eq_of_lt (Nat.lt_succ_of_le hx)
  rw [assemble_build, assemble_validateC, assemble_vdecodeC]
  refine ⟨?_, ?_, ?_⟩
  · split
    next h => simp [encode_eq_ofNat, Instr.operandA, Instr.operandB, Instr.opcode, hbyte h.1, hbyte h.2]
    next => rfl
  all_goals
    split
    next h => simp [encode_eq_ofNat, Instr.operandA, Instr.operandB, Instr.opcode, hbyte h]
    next => rfl

end Sys2Proof.Machine

/-! PROOF. The statements about the checksum engine (O23 to O26). The checksum turns concatenation into addition of bytes
modulo 256 (`cksum8_append`), so what one byte contributes is a summand that can be cancelled or moved. -/

namespace Sys2Proof.Machine

open Sys2Proof.Claim

/-! ### The checksum of a sequence from those of its parts -/

@[simp] theorem cksum8_nil : cksum8 [] = 0#8 := rfl

@[simp] theorem cksum8_append (l m : List Byte) : cksum8 (l ++ m) = cksum8 l + cksum8 m := by
  rw [cksum8_eq_ofNat, List.map_append, List.sum_append, BitVec.ofNat_add, ← cksum8_eq_ofNat, ← cksum8_eq_ofNat]

@[simp] theorem cksum8_cons (b : Byte) (l : List Byte) : cksum8 (b :: l) = b + cksum8 l := by
  rw [cksum8_eq_ofNat, List.map_cons, List.sum_cons, BitVec.ofNat_add, ← cksum8_eq_ofNat, BitVec.ofNat_toNat,
    BitVec.setWidth_eq]

theorem cksum8_perm {l m : List Byte} (h : l.Perm m) : cksum8 l = cksum8 m := by
  rw [cksum8_eq_ofNat, cksum8_eq_ofNat, (h.map BitVec.toNat).sum_eq]

/-- Two sequences that differ in one byte at most have the same checksum exactly when that byte is the same (R102). -/
theorem cksum8_replace_inj {l r : List Byte} {b c : Byte} :
    cksum8 (l ++ b :: r) = cksum8 (l ++ c :: r) ↔ b = c := by
  rw [cksum8_append, cksum8_append, cksum8_cons, cksum8_cons, BitVec.add_right_inj, BitVec.add_left_inj]

/-- R103's loop, from any value of the accumulator. -/
theorem foldl_add_eq_add_cksum8 (l : List Byte) (acc : Byte) :
    l.foldl (fun acc b => acc + b) acc = acc + cksum8 l := by
  induction l generalizing acc with
  | nil => rw [List.foldl_nil, cksum8_nil, BitVec.add_zero]
  | cons b l ih => rw [List.foldl_cons, ih, cksum8_cons, BitVec.add_assoc]

/-- The checksum of the first `j` bytes of `IN`, as a sum over indices (R11). -/
theorem cksum8_slice_inByte (s : State) (j : Nat) :
    cksum8 (slice (inByte s) 0 j) = BitVec.ofNat 8 (sumTo s j) := by
  rw [cksum8_eq_ofNat, ← byteSum, byteSum_slice, sumTo]

/-- Flipping a bit of a byte gives another byte. -/
theorem xor_twoPow_ne_self (b : Byte) {k : Nat} (hk : k < 8) : b ^^^ BitVec.twoPow 8 k ≠ b := by
  intro h
  have hbit := congrArg (BitVec.getLsbD · k) h
  simp [hk] at hbit

/-! ### The statements -/

/-- Settles O23: the sum modulo 256 is the definition, and a reordering keeps the sum. -/
theorem checksumIsSumModulo256 : Obligations.ChecksumIsSumModulo256 :=
  ⟨cksum8_toNat, cksum8_nil, fun _ _ => cksum8_perm⟩

/-- Settles O24, by induction on the bytes from any value of the accumulator. -/
theorem accumulatorLoopIsTheChecksum : Obligations.AccumulatorLoopIsTheChecksum := by
  intro l
  rw [foldl_add_eq_add_cksum8, BitVec.zero_add]

/-- Settles O25: a byte is a summand of the checksum, so it can be cancelled, and `1` moved from one to another. -/
theorem oneChangedByteChangesTheChecksum : Obligations.OneChangedByteChangesTheChecksum := by
  refine ⟨fun l r b c hne => mt cksum8_replace_inj.mp hne, fun l r b k hk => ?_, fun l m r b c _ _ => ?_⟩
  · exact mt cksum8_replace_inj.mp (xor_twoPow_ne_self b hk).symm
  · simp only [cksum8_append, cksum8_cons]
    ring

/-- Settles O26: CKSUM leaves the checksum of its input and `OK` in cleared results; its word is the instruction's own. -/
theorem cksumGivesTheInputChecksum : Obligations.CksumGivesTheInputChecksum := by
  refine ⟨decodeOp_encode .cksum, fun s => ?_⟩
  rw [exec_eq, operationResults, cksum8_slice_inByte]
  rfl

end Sys2Proof.Machine

/-! PROOF. The statements about the request builder (O27 to O29). What BUILD leaves is said once (`exec_build`). That a
request never validates is the start marker check, whose outcome is the same for every operation that validates. -/

namespace Sys2Proof.Machine

open Sys2Proof.Claim

/-! ### The request frame -/

/-- The word of BUILD, `0x00ddcc02` (R71). -/
theorem encode_build (dev cmd : Byte) :
    encode (.build dev cmd) = BitVec.ofNat 32 (dev.toNat * 65536 + cmd.toNat * 256 + 2) :=
  encode_eq_ofNat (.build dev cmd)

/-- The fixed bytes of a request add up to 3 modulo 256: `5A + A5 + 00 + 04 = 0x103` (R120). -/
theorem cksum8_requestHead (dev cmd : Byte) : cksum8 (requestHead dev cmd) = 3#8 + dev + cmd := by
  have hfixed : cksum8 [REQ_START_0, REQ_START_1, REQ_LEN.extractLsb' 8 8, REQ_LEN.extractLsb' 0 8] = 3#8 := by decide
  calc cksum8 (requestHead dev cmd)
      = cksum8 ([REQ_START_0, REQ_START_1, REQ_LEN.extractLsb' 8 8, REQ_LEN.extractLsb' 0 8] ++ [dev, cmd]) := rfl
    _ = 3#8 + dev + cmd := by rw [cksum8_append, hfixed]; simp [BitVec.add_assoc]

/-- The eight bytes of a request written out (R75, R120). -/
theorem requestFrame_eq (dev cmd : Byte) :
    requestFrame dev cmd = #v[0x5A#8, 0xA5#8, 0x00#8, 0x04#8, dev, cmd, 3#8 + dev + cmd, 0x68#8] := by
  rw [requestFrame, cksum8_requestHead]
  rfl

/-- The bytes before the checksum byte are those the checksum covers (R101, R120). -/
theorem take_requestFrame (dev cmd : Byte) : (requestFrame dev cmd).toList.take 6 = requestHead dev cmd := rfl

/-- BUILD replaces the result state by the request frame and `OK`, all else 0 (R120). -/
theorem exec_build (dev cmd : Byte) (s : State) : exec (.build dev cmd) s =
    .next (s.setRes { Results.zeroExcept STATUS_OK with req := requestFrame dev cmd }) :=
  exec_eq (.build dev cmd) s

/-- Settles O27: the word is the instruction's own, and the checksum of the fixed bytes is 3. -/
theorem buildWritesTheRequestFrame : Obligations.BuildWritesTheRequestFrame := by
  intro dev cmd s
  rw [← encode_build, exec_build, requestFrame_eq]
  exact ⟨decodeOp_encode _, rfl⟩

/-- Settles O28: the frame does not depend on the state, and its byte 6 is the checksum of the six before it. -/
theorem builtFrameHasTheProperties : Obligations.BuiltFrameHasTheProperties := by
  intro dev cmd s s'
  refine ⟨_, _, exec_build dev cmd s, exec_build dev cmd s', rfl, rfl, rfl, rfl, rfl, ?_, ?_⟩
  · show (REQ_LEN.extractLsb' 8 8).toNat * 256 + (REQ_LEN.extractLsb' 0 8).toNat = 4
    decide
  · rw [setRes_res, take_requestFrame]
    exact cksum8_toNat (requestHead dev cmd)

/-! ### A failed start marker check (O29) -/

/-- The outcome of the start marker check on an input long enough for it (R141, R142). -/
theorem validateFrame_of_badStartMarker {rd : Nat → Byte} {n : Nat} (hn : 8 ≤ n) (h : rd 0 ≠ 0xAA#8 ∨ rd 1 ≠ 0x55#8)
    (expected : Option Byte) : validateFrame rd n expected = .err ⟨.badStartMarker, 0xAA55, be16 rd 0⟩ := by
  unfold validateFrame
  exact (if_neg (Nat.not_lt.mpr hn)).trans (if_pos h)

/-- An operation that validates passes on the error its validation ends with (R149, R150, R188, R189). -/
theorem exec_of_validateFrame_err {i : Instr} {s : State} {e : Report} (hv : validates i = true)
    (h : validateFrame (inByte s) (inputLen s) (expectedCommand i) = .err e) :
    exec i s = .next (s.setRes (errorResults e.kind.code e.x e.y)) := by
  rw [exec_eq]
  cases i with
  | cksum | build | decode => cases hv
  | validate | validateC =>
    rw [expectedCommand] at h
    rw [operationResults, h, Res.results]
  | vdecode | vdecodeC =>
    rw [expectedCommand] at h
    rw [operationResults, validateDecode, h, Res.results]

/-- Settles O29: a request is as long as the shortest response, and its two start bytes are not those of a response. -/
theorem requestNeverValidates : Obligations.RequestNeverValidates := by
  intro dev cmd i s t u ht hin hv
  rw [exec_build, Host.Outcome.next.injEq] at ht
  subst ht
  obtain ⟨hlen, hbytes⟩ := hin
  have h0 : inByte u 0 = 0x5A#8 := hbytes 0 (by simp)
  have h1 : inByte u 1 = 0xA5#8 := hbytes 1 (by simp)
  have hn : inputLen u = 8 := by rw [inputLen, hlen, Vector.length_toList]
  have hmarker : be16 (inByte u) 0 = 0x5AA5 := by rw [be16, h0, h1]; rfl
  have hbad : inByte u 0 ≠ 0xAA#8 ∨ inByte u 1 ≠ 0x55#8 := .inl (by rw [h0]; decide)
  have herr := validateFrame_of_badStartMarker hn.ge hbad (expectedCommand i)
  rw [exec_of_validateFrame_err hv herr, hmarker]
  rfl

end Sys2Proof.Machine

/-! PROOF. The statements about the response validator (O30, O31, O33 to O36) and about VDECODE against VALIDATE and DECODE
(O40). Each check of the validator has a lemma that says what it ends in when the checks before it pass; the statements
about mutated, shortened and extended frames find the first check that fails. -/

namespace Sys2Proof.Machine

open Sys2Proof.Claim

/-! ### The first failing check (O30, O31) -/

/-- The report of an outcome that is an error, as a `STATUS` code and its two details (R223). -/
def Res.failure? {α : Type} : Res α → Option (BitVec 4 × Nat × Nat)
  | .ok _ => none
  | .err e => some (e.kind.code, e.x, e.y)

/-- A check of the validator and an entry of the list of checks agree on the first failure when they agree on their own
condition and report, and what comes after them agrees (R140, R220). -/
theorem Res.failure?_ite_err {α : Type} {p : Prop} [Decidable p] {c : Bool} {e : Report} {r : Res α}
    {l : List (Bool × BitVec 4 × Nat × Nat)} (hcheck : c = true ↔ p)
    (hrest : r.failure? = (l.find? (fun x => x.1)).map (fun x => x.2)) :
    (if p then .err e else r).failure? =
      (((c, e.kind.code, e.x, e.y) :: l).find? (fun x => x.1)).map (fun x => x.2) := by
  by_cases hp : p
  · rw [if_pos hp, List.find?_cons_of_pos (hcheck.mpr hp)]
    rfl
  · rw [if_neg hp, List.find?_cons_of_neg (mt hcheck.mp hp), hrest]

/-- The list of checks names the error the validator ends in, with its details, and none when it succeeds. -/
theorem firstFailure_eq (expected : Option Byte) (s : State) :
    firstFailure expected s = (validateFrame (inByte s) (inputLen s) expected).failure? := by
  have hsum : (cksum8 (slice (inByte s) 0 (inputLen s - 2))).toNat = sumTo s (inputLen s - 2) % 256 := by
    rw [cksum8_toNat, byteSum_slice, sumTo]
  symm
  unfold firstFailure checks validateFrame
  rw [hsum]
  refine Res.failure?_ite_err decide_eq_true_iff (Res.failure?_ite_err ?start (Res.failure?_ite_err bne_iff_ne
    (Res.failure?_ite_err bne_iff_ne (Res.failure?_ite_err ?checksum ?command))))
  case start => simp [RSP_START_0, RSP_START_1]
  case checksum => rw [bne_iff_ne, ne_eq, ne_eq, ← BitVec.toNat_inj, hsum]; rfl
  case command =>
    cases expected with
    | none => rfl
    | some exp => exact Res.failure?_ite_err bne_iff_ne rfl

/-- What a validation leaves is what the list of checks says (R149, R150, R220). -/
theorem validateFrame_results_eq (expected : Option Byte) (s : State) :
    (validateFrame (inByte s) (inputLen s) expected).results Results.withFrame = validateResults expected s := by
  rw [validateResults, firstFailure_eq]
  cases h : validateFrame (inByte s) (inputLen s) expected with
  | err e => rfl
  | ok v =>
    rw [(validateFrame_ok h).2]
    rfl

/-- Settles O30: the word is the instruction's own, and the validator ends in the first failing check. -/
theorem validateReportsTheFirstFailure : Obligations.ValidateReportsTheFirstFailure := by
  refine ⟨decodeOp_encode .validate, fun s => ?_⟩
  rw [exec_eq, operationResults, validateFrame_results_eq]
  rfl

/-- The word of VALIDATE.C, `0x0000ee04` (R71). -/
theorem encode_validateC (exp : Byte) : encode (.validateC exp) = BitVec.ofNat 32 (exp.toNat * 256 + 4) := by
  simp [encode_eq_ofNat, Instr.operandA, Instr.operandB, Instr.opcode]

/-- Settles O31: the list of checks ends in the command check when a command is expected. -/
theorem validateCReportsTheFirstFailure : Obligations.ValidateCReportsTheFirstFailure := by
  intro exp s
  rw [← encode_validateC, exec_eq, operationResults, validateFrame_results_eq]
  exact ⟨decodeOp_encode _, rfl⟩

/-! ### What each check ends in when the checks before it pass -/

section
variable {rd : Nat → Byte} {n : Nat}

/-- The outcome of the length check of R141. -/
theorem validateFrame_of_tooShort (hn : n < 8) (expected : Option Byte) :
    validateFrame rd n expected = .err ⟨.tooShort, 8, n⟩ := if_pos hn

/-- The outcome of the end marker check (R143). -/
theorem validateFrame_of_badEndMarker (hn : 8 ≤ n) (hstart : rd 0 = 0xAA#8 ∧ rd 1 = 0x55#8) (h : rd (n - 1) ≠ 0x68#8)
    (expected : Option Byte) : validateFrame rd n expected = .err ⟨.badEndMarker, 0x68, (rd (n - 1)).toNat⟩ := by
  simp [validateFrame, FRAME_MIN, RSP_START_0, RSP_START_1, END_MARK, *]

/-- The outcome of the length field check (R144). -/
theorem validateFrame_of_lengthMismatch (hn : 8 ≤ n) (hstart : rd 0 = 0xAA#8 ∧ rd 1 = 0x55#8)
    (hend : rd (n - 1) = 0x68#8) (h : be16 rd 2 ≠ n - 4) (expected : Option Byte) :
    validateFrame rd n expected = .err ⟨.lengthMismatch, be16 rd 2, n - 4⟩ := by
  simp [validateFrame, FRAME_MIN, RSP_START_0, RSP_START_1, END_MARK, LEN_ADJ, *]

/-- The outcome of the checksum check (R145). -/
theorem validateFrame_of_checksumMismatch (hn : 8 ≤ n) (hstart : rd 0 = 0xAA#8 ∧ rd 1 = 0x55#8)
    (hend : rd (n - 1) = 0x68#8) (hlen : be16 rd 2 = n - 4) (h : rd (n - 2) ≠ cksum8 (slice rd 0 (n - 2)))
    (expected : Option Byte) : validateFrame rd n expected =
      .err ⟨.checksumMismatch, (cksum8 (slice rd 0 (n - 2))).toNat, (rd (n - 2)).toNat⟩ := by
  simp [validateFrame, FRAME_MIN, RSP_START_0, RSP_START_1, END_MARK, LEN_ADJ, *]

end

/-- Where VALIDATE ends in `OK`, its validation succeeds. -/
theorem validateFrame_isOk_of_exec_validate {s s' : State} (h : exec .validate s = .next s')
    (hok : s'.res.status = STATUS_OK) : ∃ v, validateFrame (inByte s) (inputLen s) none = .ok v := by
  rw [exec_eq, Host.Outcome.next.injEq] at h
  subst h
  exact Res.eq_ok_of_results_status (write := Results.withFrame) hok

/-- The `STATUS` an operation that validates ends in when its validation fails. -/
theorem exec_status_of_validateFrame_err {i : Instr} {s : State} {e : Report} (hv : validates i = true)
    (h : validateFrame (inByte s) (inputLen s) (expectedCommand i) = .err e) :
    ∃ t, exec i s = .next t ∧ t.res.status = e.kind.code :=
  ⟨_, exec_of_validateFrame_err hv h, rfl⟩

/-! ### One changed byte (O33) -/

/-- A big-endian field determines its two bytes (R51). -/
theorem be16_inj {rd rd' : Nat → Byte} {o : Nat} :
    be16 rd o = be16 rd' o ↔ rd o = rd' o ∧ rd (o + 1) = rd' (o + 1) := by
  have h0 := (rd o).isLt
  have h1 := (rd (o + 1)).isLt
  have h0' := (rd' o).isLt
  have h1' := (rd' (o + 1)).isLt
  rw [← BitVec.toNat_inj, ← BitVec.toNat_inj, be16, be16]
  omega

/-- A slice from index 0 around the byte at index `k`. -/
theorem slice_eq_append_cons (rd : Nat → Byte) {k m : Nat} (h : k < m) :
    slice rd 0 m = slice rd 0 k ++ rd k :: slice rd (k + 1) m := by
  have hk : slice rd 0 (k + 1) = slice rd 0 k ++ [rd k] := by simp [slice, List.range_succ]
  rw [slice_eq_append rd (Nat.succ_le_of_lt h), hk, List.append_assoc, List.singleton_append]

section
variable {rd rd' : Nat → Byte} {n k : Nat}

/-- Changing one byte of a slice changes its checksum (R102). -/
theorem cksum8_slice_ne (hk : k < n) (hne : rd' k ≠ rd k) (hsame : ∀ i, i < n → i ≠ k → rd' i = rd i) :
    cksum8 (slice rd' 0 n) ≠ cksum8 (slice rd 0 n) := by
  have hbefore : slice rd' 0 k = slice rd 0 k := slice_congr fun i _ hi => hsame i (by omega) (by omega)
  have hafter : slice rd' (k + 1) n = slice rd (k + 1) n := slice_congr fun i hi hin => hsame i hin (by omega)
  rw [slice_eq_append_cons rd' hk, slice_eq_append_cons rd hk, hbefore, hafter]
  exact mt cksum8_replace_inj.mp hne

/-- The checksum check fails when the byte changed is a byte it covers or the checksum byte itself (R145, R153). -/
theorem checksum_ne_of_one_byte_changed (hn : 8 ≤ n) (hck : rd (n - 2) = cksum8 (slice rd 0 (n - 2))) (hk : k < n - 1)
    (hne : rd' k ≠ rd k) (hsame : ∀ i, i < n → i ≠ k → rd' i = rd i) :
    rd' (n - 2) ≠ cksum8 (slice rd' 0 (n - 2)) := by
  rcases Nat.lt_or_ge k (n - 2) with hlt | hge
  · rw [hsame (n - 2) (by omega) (by omega), hck]
    exact (cksum8_slice_ne hlt hne fun i hi => hsame i (by omega)).symm
  · obtain rfl : k = n - 2 := by omega
    rwa [slice_congr fun i _ hi => hsame i (by omega) (by omega), ← hck]

/-- The first check that fails on a frame with one byte changed is the one R153's table gives for its offset. -/
theorem validateFrame_of_one_byte_changed (h : ∃ v, validateFrame rd n none = .ok v) (hk : k < n) (hne : rd' k ≠ rd k)
    (hsame : ∀ i, i < n → i ≠ k → rd' i = rd i) (expected : Option Byte) :
    ∃ e, validateFrame rd' n expected = .err e ∧ e.kind.code = mutationError n k := by
  obtain ⟨hn, ⟨h0, h1⟩, hend, hlen, hck⟩ := validateFrame_none_isOk_iff.mp h
  have hstart' : 2 ≤ k → rd' 0 = 0xAA#8 ∧ rd' 1 = 0x55#8 := fun hk2 =>
    ⟨(hsame 0 (by omega) (by omega)).trans h0, (hsame 1 (by omega) (by omega)).trans h1⟩
  have hend' : k ≠ n - 1 → rd' (n - 1) = 0x68#8 := fun hlast => (hsame (n - 1) (by omega) hlast.symm).trans hend
  have hlen' : 4 ≤ k → be16 rd' 2 = n - 4 := fun hk4 =>
    (be16_congr (hsame 2 (by omega) (by omega)) (hsame 3 (by omega) (by omega))).trans hlen
  unfold mutationError
  split_ifs with hmarker hlast hfield
  · refine ⟨_, validateFrame_of_badStartMarker hn ?_ expected, rfl⟩
    rw [← h0, ← h1]
    obtain rfl | rfl : k = 0 ∨ k = 1 := by omega
    · exact .inl hne
    · exact .inr hne
  · subst hlast
    exact ⟨_, validateFrame_of_badEndMarker hn (hstart' (by omega)) (hend ▸ hne) expected, rfl⟩
  · refine ⟨_, validateFrame_of_lengthMismatch hn (hstart' (by omega)) (hend' hlast) ?_ expected, rfl⟩
    rw [← hlen, ne_eq, be16_inj]
    rintro ⟨h2, h3⟩
    obtain rfl | rfl : k = 2 ∨ k = 3 := by omega
    · exact hne h2
    · exact hne h3
  · have hck' := checksum_ne_of_one_byte_changed hn hck (by omega) hne hsame
    exact ⟨_, validateFrame_of_checksumMismatch hn (hstart' (by omega)) (hend' hlast) (hlen' (by omega)) hck' expected,
      rfl⟩

end

/-- Settles O33: the mutated frame has the length of the valid one, and R153's table follows the order of the checks. -/
theorem singleByteMutationIsRejected : Obligations.SingleByteMutationIsRejected := by
  intro s t s' op k hs hok hk hlen hne hsame hv
  have hvalid := validateFrame_isOk_of_exec_validate hs hok
  obtain ⟨e, he, hcode⟩ := validateFrame_of_one_byte_changed hvalid hk hne hsame (expectedCommand op)
  have hn : inputLen t = inputLen s := congrArg BitVec.toNat hlen
  rw [← hn] at he
  obtain ⟨t', ht, hstatus⟩ := exec_status_of_validateFrame_err hv he
  exact ⟨t', ht, hstatus.trans hcode⟩

/-! ### A length that is not the length field's (O34, O35) -/

/-- An input whose start marker is right and whose length field is not its length less 4 ends in one of two errors, by its
last byte (R143, R144). -/
theorem exec_status_of_length_ne {op : Instr} {s : State} (hv : validates op = true) (hn : 8 ≤ inputLen s)
    (hstart : inByte s 0 = 0xAA#8 ∧ inByte s 1 = 0x55#8) (hlen : be16 (inByte s) 2 ≠ inputLen s - 4) :
    ∃ t, exec op s = .next t ∧
      t.res.status = if inByte s (inputLen s - 1) = 0x68#8 then 0x4#4 else 0x3#4 := by
  split
  next hend => exact exec_status_of_validateFrame_err hv (validateFrame_of_lengthMismatch hn hstart hend hlen _)
  next hend => exact exec_status_of_validateFrame_err hv (validateFrame_of_badEndMarker hn hstart hend _)

/-- Another input that begins with the first eight bytes of a valid frame and has another length ends so (R152, R154). -/
theorem exec_status_of_frame_of_other_length {s t s' : State} {op : Instr} (hs : exec .validate s = .next s')
    (hok : s'.res.status = STATUS_OK) (hbytes : ∀ i, i < 8 → inByte t i = inByte s i) (hn : 8 ≤ inputLen t)
    (hne : inputLen t ≠ inputLen s) (hv : validates op = true) :
    ∃ t', exec op t = .next t' ∧
      t'.res.status = if inByte t (inputLen t - 1) = 0x68#8 then 0x4#4 else 0x3#4 := by
  obtain ⟨-, ⟨h0, h1⟩, -, hlen, -⟩ := validateFrame_none_isOk_iff.mp (validateFrame_isOk_of_exec_validate hs hok)
  have hfield : be16 (inByte t) 2 = be16 (inByte s) 2 := be16_congr (hbytes 2 (by omega)) (hbytes 3 (by omega))
  exact exec_status_of_length_ne hv hn ⟨(hbytes 0 (by omega)).trans h0, (hbytes 1 (by omega)).trans h1⟩ (by omega)

/-- Settles O34: a frame cut short is below 8 bytes, or still holds the length field of the whole frame. -/
theorem strictPrefixNeverValidates : Obligations.StrictPrefixNeverValidates := by
  intro s t s' op hs hok hlt hbytes hv
  split
  next hshort => exact exec_status_of_validateFrame_err hv (validateFrame_of_tooShort hshort _)
  next hlong =>
    have hn : 8 ≤ inputLen t := Nat.le_of_not_lt hlong
    exact exec_status_of_frame_of_other_length hs hok (fun i hi => hbytes i (hi.trans_le hn))
      hn hlt.ne hv

/-- Settles O35: no length field holds the length of an oversized input, and appended bytes leave the field as it was. -/
theorem oversizedInputNeverValidates : Obligations.OversizedInputNeverValidates := by
  constructor
  · intro s op hbig hv
    have hn : 8 ≤ inputLen s := Nat.le_trans (by decide) (Nat.le_of_lt hbig)
    by_cases hstart : inByte s 0 = 0xAA#8 ∧ inByte s 1 = 0x55#8
    · have hfield := be16_lt (inByte s) 2
      have hlen : be16 (inByte s) 2 ≠ inputLen s - 4 := by
        rw [inputLen]
        omega
      obtain ⟨t, ht, hstatus⟩ := exec_status_of_length_ne hv hn hstart hlen
      refine ⟨t, ht, ?_, fun _ _ hend => hstatus.trans (if_pos hend)⟩
      rw [hstatus]
      split <;> decide
    · have hbad := validateFrame_of_badStartMarker hn (not_and_or.mp hstart) (expectedCommand op)
      obtain ⟨t, ht, hstatus⟩ := exec_status_of_validateFrame_err hv hbad
      refine ⟨t, ht, ?_, fun h0 h1 => absurd ⟨h0, h1⟩ hstart⟩
      rw [hstatus]
      exact code_ne_ok .badStartMarker
  · intro s t s' op hs hok hlt hbytes hv
    obtain ⟨hn, -⟩ := validateFrame_none_isOk_iff.mp (validateFrame_isOk_of_exec_validate hs hok)
    exact exec_status_of_frame_of_other_length hs hok (fun i hi => hbytes i (hi.trans_le hn))
      (hn.trans hlt.le) hlt.ne' hv

/-! ### Short, zero and arbitrary input (O36) -/

/-- Settles O36: the first two checks, and results that depend on the parameters and the input alone. -/
theorem shortAndZeroInputsAreRejected : Obligations.ShortAndZeroInputsAreRejected := by
  intro i s hv
  refine ⟨fun hshort => ?_, fun hlong hzero => ?_, operationResults s.params.layout (inByte s) (inputLen s) i, ?_⟩
  · exact exec_of_validateFrame_err hv (validateFrame_of_tooShort hshort _)
  · have h0 : inByte s 0 = 0#8 := hzero 0 (by omega)
    have h1 : inByte s 1 = 0#8 := hzero 1 (by omega)
    have hbad : inByte s 0 ≠ 0xAA#8 ∨ inByte s 1 ≠ 0x55#8 := .inl (by rw [h0]; decide)
    have hmarker : be16 (inByte s) 0 = 0 := by rw [be16, h0, h1]; rfl
    rw [exec_of_validateFrame_err hv (validateFrame_of_badStartMarker hlong hbad _), hmarker]
    rfl
  · intro t hparams hlen hbytes
    have hn : inputLen t = inputLen s := congrArg BitVec.toNat hlen
    have hinput : ∀ k, k < inputLen s → inByte t k = inByte s k := hbytes
    have hres : operationResults t.params.layout (inByte t) (inputLen t) i =
        operationResults s.params.layout (inByte s) (inputLen s) i := by
      rw [hparams, hn, operationResults_congr hinput]
    rw [exec_eq, hres]
    rfl

/-! ### VDECODE against VALIDATE and DECODE (O40) -/

section
variable {L : Layout} {rd : Nat → Byte} {n : Nat} {expected : Option Byte}

theorem validateDecode_of_validateFrame_err {e : Report} (h : validateFrame rd n expected = .err e) :
    validateDecode L rd n expected = .err e := by
  simp only [validateDecode, h]

/-- After a successful validation VDECODE ends as the decoding of the view does (R188). -/
theorem validateDecode_of_decodePayload_err {v : ValidatedFrame} {e : Report} (h : validateFrame rd n expected = .ok v)
    (hd : decodePayload L (viewFrom rd v.pofs) v.plen = .err e) : validateDecode L rd n expected = .err e := by
  simp only [validateDecode, h, hd]

theorem validateDecode_of_decodePayload_ok {v : ValidatedFrame} {t : TelemetryRecord}
    (h : validateFrame rd n expected = .ok v) (hd : decodePayload L (viewFrom rd v.pofs) v.plen = .ok t) :
    validateDecode L rd n expected = .ok (v, t) := by
  simp only [validateDecode, h, hd]

end

/-- The length of a frame's payload fits the register it is written to (R10, R31). -/
theorem payload_length_toNat (s : State) :
    (BitVec.ofNat 32 (inputLen s - FRAME_OVERHEAD)).toNat = inputLen s - FRAME_OVERHEAD :=
  Nat.mod_eq_of_lt (Nat.lt_of_le_of_lt (Nat.sub_le _ _) s.inLen.isLt)

/-- Settles O40, by the outcome of the validation and then by that of the decoding, which reads the same bytes as a payload
loaded alone and as a view. -/
theorem vdecodeIsValidateThenDecodeOfTheView : Obligations.VdecodeIsValidateThenDecodeOfTheView := by
  intro s u
  refine ⟨_, _, _, exec_eq .validate s, exec_eq .decode u, exec_eq .vdecode s, ?_⟩
  simp only [setRes_res, operationResults]
  cases hv : validateFrame (inByte s) (inputLen s) none with
  | err e =>
    rw [validateDecode_of_validateFrame_err hv]
    exact ⟨fun _ => rfl, fun hok => absurd hok (code_ne_ok e.kind)⟩
  | ok v =>
    refine ⟨fun hne => absurd rfl hne, fun _ hparams hlen hbytes => ?_⟩
    obtain ⟨-, rfl⟩ := validateFrame_ok hv
    have hlength := payload_length_toNat s
    have hn : inputLen u = inputLen s - FRAME_OVERHEAD := (congrArg BitVec.toNat hlen).trans hlength
    have hview : ∀ k, k < inputLen s - FRAME_OVERHEAD → inByte u k = viewFrom (inByte s) PAYLOAD_OFS k :=
      fun k hk => hbytes k (hk.trans_eq hlength.symm)
    rw [hn, hparams, decodePayload_congr hview]
    cases hd : decodePayload s.params.layout (viewFrom (inByte s) PAYLOAD_OFS) (inputLen s - FRAME_OVERHEAD) with
    | err e =>
      rw [validateDecode_of_decodePayload_err hv hd]
      exact ⟨fun _ => rfl, fun hok => absurd hok (code_ne_ok e.kind)⟩
    | ok t =>
      rw [validateDecode_of_decodePayload_ok hv hd]
      exact ⟨fun hne => absurd rfl hne, fun _ => rfl⟩

end Sys2Proof.Machine

/-! PROOF. The statements about the telemetry decoder (O37 to O39, O41 to O43). What the decoder leaves is said once for
a bare payload and once for a frame, over the bytes of `IN`; an operation that reaches the decoder is then one of the two
(`exec_of_reachesDecoder`). What a `TR_` register holds is its raw field less the bias (`TrField.value_withTelemetry`). -/

namespace Sys2Proof.Machine

open Sys2Proof.Claim

/-! ### What the decoder leaves (O37 to O39) -/

/-- A bare payload is the view of `IN` that starts at 0 (R187). -/
theorem viewFrom_zero (rd : Nat → Byte) : viewFrom rd 0 = rd := funext fun k => congrArg rd (Nat.zero_add k)

/-- The record of the view that starts at index `o`, written over other results, in terms of the bytes of `IN`. -/
theorem withTelemetry_extractRecord_eq (s : State) (o : Nat) (r : Results) :
    r.withTelemetry (extractRecord s.params.layout (viewFrom (inByte s) o)) = withRecord s o r := by
  cases hw : s.params.layout.bstatusWidth <;>
    simp only [Results.withTelemetry, extractRecord, bstatusField, withRecord, hw] <;> rfl

/-- What the decoding of a bare payload leaves (R170, R187). -/
theorem decodePayload_results_eq (s : State) :
    (decodePayload s.params.layout (inByte s) (inputLen s)).results Results.withTelemetry =
      if inputLen s < s.params.layout.payloadMin then errorResults 0x7#4 s.params.layout.payloadMin (inputLen s)
      else withRecord s 0 (Results.zeroExcept STATUS_OK) := by
  unfold decodePayload
  split
  next => rfl
  next => rw [Res.results, ← withTelemetry_extractRecord_eq, viewFrom_zero]

/-- What a validation and then the decoding of its payload leave (R188, R189, R221). -/
theorem validateDecode_results_eq (expected : Option Byte) (s : State) :
    (validateDecode s.params.layout (inByte s) (inputLen s) expected).results Results.withFrameAndTelemetry =
      vdecodeResults expected s := by
  rw [vdecodeResults, firstFailure_eq]
  cases hv : validateFrame (inByte s) (inputLen s) expected with
  | err e =>
    rw [validateDecode_of_validateFrame_err hv]
    rfl
  | ok v =>
    obtain ⟨-, rfl⟩ := validateFrame_ok hv
    show _ = if inputLen s - FRAME_OVERHEAD < s.params.layout.payloadMin then _ else _
    split
    next hshort =>
      rw [validateDecode_of_decodePayload_err hv (if_pos hshort)]
      rfl
    next hlong =>
      rw [validateDecode_of_decodePayload_ok hv (if_neg hlong), ← withTelemetry_extractRecord_eq]
      rfl

/-- Settles O37: the word is the instruction's own, and the input is the payload. -/
theorem decodeGivesTheRecord : Obligations.DecodeGivesTheRecord := by
  refine ⟨decodeOp_encode .decode, fun s => ?_⟩
  rw [exec_eq, operationResults, decodePayload_results_eq]
  rfl

/-- Settles O38: the word is the instruction's own, and no command is expected. -/
theorem vdecodeValidatesThenDecodes : Obligations.VdecodeValidatesThenDecodes := by
  refine ⟨decodeOp_encode .vdecode, fun s => ?_⟩
  rw [exec_eq, operationResults, validateDecode_results_eq]
  rfl

/-- The word of VDECODE.C, `0x0000ee07` (R71). -/
theorem encode_vdecodeC (exp : Byte) : encode (.vdecodeC exp) = BitVec.ofNat 32 (exp.toNat * 256 + 7) := by
  simp [encode_eq_ofNat, Instr.operandA, Instr.operandB, Instr.opcode]

/-- Settles O39: VDECODE.C is the same validation and decoding, with the operand as the expected command. -/
theorem vdecodeCValidatesThenDecodes : Obligations.VdecodeCValidatesThenDecodes := by
  intro exp s
  rw [← encode_vdecodeC, exec_eq, operationResults, validateDecode_results_eq]
  exact ⟨decodeOp_encode _, rfl⟩

/-! ### Every operation that reaches the decoder (O42, O43) -/

/-- All that an operation that reaches the decoder can do: `PayloadTooShort`, or the record of its payload over results
that hold `STATUS = OK` (R171, R187 to R189). -/
theorem exec_of_reachesDecoder {i : Instr} {s : State} (h : reachesDecoder i s) :
    ∃ r : Results, r.status = STATUS_OK ∧ exec i s = .next (s.setRes
      (if payloadLength i s < s.params.layout.payloadMin then
        errorResults 0x7#4 s.params.layout.payloadMin (payloadLength i s)
      else withRecord s (payloadStart i) r)) := by
  obtain ⟨hd, hvalid⟩ := h
  cases i with
  | cksum | build | validate | validateC => cases hd
  | decode =>
    refine ⟨Results.zeroExcept STATUS_OK, rfl, ?_⟩
    rw [exec_eq, operationResults, decodePayload_results_eq]
    rfl
  | vdecode | vdecodeC =>
    have hnone := hvalid rfl
    rw [expectedCommand] at hnone
    refine ⟨frameResults s, rfl, ?_⟩
    rw [exec_eq, operationResults, validateDecode_results_eq, vdecodeResults, hnone]
    rfl

/-- From `PAYLOAD_MIN` bytes on, such an operation writes the record of its payload. -/
theorem exec_of_payloadMin_le {i : Instr} {s : State} (h : reachesDecoder i s)
    (hlong : s.params.layout.payloadMin ≤ payloadLength i s) :
    ∃ r : Results, r.status = STATUS_OK ∧ exec i s = .next (s.setRes
      (r.withTelemetry (extractRecord s.params.layout (viewFrom (inByte s) (payloadStart i))))) := by
  obtain ⟨r, hok, hexec⟩ := exec_of_reachesDecoder h
  refine ⟨r, hok, ?_⟩
  rw [hexec, if_neg (Nat.not_lt.mpr hlong), withTelemetry_extractRecord_eq]

/-- Settles O43: the one check of the decoder is on the payload's length. -/
theorem decoderRejectsNoFieldValue : Obligations.DecoderRejectsNoFieldValue := by
  intro i s h
  obtain ⟨r, hok, hexec⟩ := exec_of_reachesDecoder h
  refine ⟨_, hexec, ?_⟩
  rw [setRes_res]
  split
  next hshort => exact ⟨.inr rfl, fun hlong => absurd hshort (Nat.not_lt.mpr hlong)⟩
  next => exact ⟨.inl hok, fun _ => hok⟩

/-- A `TR_` register's integer is the record's alone, whatever results the record is written over. -/
theorem TrField.value_withTelemetry_congr (f : TrField) (t : TelemetryRecord) (r r' : Results) :
    f.value (r.withTelemetry t) = f.value (r'.withTelemetry t) := by
  cases f <;> rfl

/-- Settles O42: both operations write the same record, which depends on the bytes inside the fields alone. -/
theorem bytesOutsideTheFieldsAreIgnored : Obligations.BytesOutsideTheFieldsAreIgnored := by
  intro i s t hs ht hlayout hslong htlong hbytes
  obtain ⟨r, hok, hexec⟩ := exec_of_payloadMin_le hs hslong
  obtain ⟨r', hok', hexec'⟩ := exec_of_payloadMin_le ht htlong
  have hrecord : extractRecord s.params.layout (viewFrom (inByte s) (payloadStart i)) =
      extractRecord t.params.layout (viewFrom (inByte t) (payloadStart i)) := by
    rw [← hlayout]
    exact extractRecord_congr hbytes
  refine ⟨_, _, hexec, hexec', hok, hok', fun f => ?_⟩
  rw [setRes_res, setRes_res, hrecord]
  exact f.value_withTelemetry_congr _ r r'

/-! ### Exact values (O41) -/

/-- What is subtracted from a raw field to give its register's integer, in raw units (R174, R178, R179). -/
def TrField.bias : TrField → Int
  | .current => CURRENT_BIAS
  | .tempMax | .tempMin => 10 * TEMP_BIAS
  | .vtotal | .vcellMax | .vcellMin | .soc | .relay | .din | .bstatus | .fault | .power => 0

theorem bstatusField_lt (L : Layout) (p : Nat → Byte) : bstatusField L p < 65536 := by
  unfold bstatusField
  split
  · exact be16_lt p L.bstatus
  · exact Nat.lt_trans (p L.bstatus).isLt (by decide)

/-- A register holds its raw field less the bias, with no wrap (R10, R186). -/
theorem TrField.value_withTelemetry (f : TrField) (L : Layout) (p : Nat → Byte) (r : Results) :
    f.value (r.withTelemetry (extractRecord L p)) = (f.raw L p : Int) - f.bias := by
  have hword : ∀ {n : Nat}, n < 65536 → ((BitVec.ofNat 16 n).toNat : Int) = (n : Int) - 0 := fun hn => by
    rw [BitVec.toNat_ofNat, Nat.mod_eq_of_lt hn, Int.sub_zero]
  cases f with
  | vtotal | vcellMax | vcellMin | soc | fault | power => exact hword (be16_lt p _)
  | current | tempMax | tempMin => exact toInt_ofInt_be16_sub p _ (by decide) (by decide)
  | relay | din => exact (Int.sub_zero _).symm
  | bstatus => exact hword (bstatusField_lt L p)

/-- The source's transform of a scaled field is the raw field less its bias, times the field's step (R79, R186). -/
theorem TrField.sourceTransform_eq (f : TrField) (raw : Nat) :
    f.sourceTransform raw = f.step.map fun q => (((raw : Int) - f.bias : Int) : Rat) * q := by
  cases f with
  | relay | din | bstatus | fault => rfl
  | vtotal | vcellMax | vcellMin | soc | power => simp [sourceTransform, step, bias]
  | current => simp [sourceTransform, step, bias, CURRENT_BIAS]
  | tempMax | tempMin =>
    simp only [sourceTransform, step, bias, TEMP_BIAS, Option.map_some, Option.some.injEq]
    push_cast
    ring

theorem TrField.bias_of_step_eq_none {f : TrField} (h : f.step = none) : f.bias = 0 := by
  cases f with
  | relay | din | bstatus | fault => rfl
  | vtotal | current | vcellMax | vcellMin | soc | tempMax | tempMin | power => cases h

/-- Settles O41: a register's integer is the raw field less its bias, and so is what the source's transform scales. -/
theorem physicalValuesAreExact : Obligations.PhysicalValuesAreExact := by
  intro i s f h hlong
  obtain ⟨r, hok, hexec⟩ := exec_of_payloadMin_le h hlong
  have hvalue := f.value_withTelemetry s.params.layout (viewFrom (inByte s) (payloadStart i)) r
  refine ⟨_, hexec, hok, ?_, fun hstep => ?_⟩
  · rw [setRes_res, TrField.physical, hvalue, TrField.sourceTransform_eq]
    rfl
  · rw [setRes_res, hvalue, TrField.bias_of_step_eq_none hstep, Int.sub_zero]
    rfl

end Sys2Proof.Machine

/-! PROOF. The statement about the errors (O18). Which operation may raise which error is one table (`mayRaise`); an
error of the validator or of the decoder is one that the table gives the operation that ran it. -/

namespace Sys2Proof.Machine

open Sys2Proof.Claim

/-! ### Which operation raises which error (O18) -/

/-- The "Raised by" of each error (R211 to R217, R219): the validator's from the operations that validate, the command
check's from those that have it, the decoder's from those that decode; an illegal word runs no operation. -/
def mayRaise (i : Instr) : ErrorKind → Bool
  | .tooShort | .badStartMarker | .badEndMarker | .lengthMismatch | .checksumMismatch => validates i
  | .unexpectedCommand => checksCommand i
  | .payloadTooShort => decodes i
  | .illegalOp => false

theorem checksCommand_of_expectedCommand {i : Instr} {exp : Byte} (h : expectedCommand i = some exp) :
    checksCommand i = true := by
  cases i with
  | cksum | build | validate | decode | vdecode => cases h
  | validateC | vdecodeC => rfl

theorem validates_of_checksCommand {i : Instr} (h : checksCommand i = true) : validates i = true := by
  cases i with
  | cksum | build | validate | decode | vdecode => cases h
  | validateC | vdecodeC => rfl

theorem mayRaise_of_validateFrame_err {i : Instr} {rd : Nat → Byte} {n : Nat} {expected : Option Byte} {e : Report}
    (hv : validates i = true) (hexpected : expectedCommand i = expected) (h : validateFrame rd n expected = .err e) :
    mayRaise i e.kind = true := by
  unfold validateFrame at h
  iterate 5
    split at h
    · cases h
      exact hv
  split at h
  next =>
    split at h <;> cases h
    exact checksCommand_of_expectedCommand hexpected
  next => cases h

theorem mayRaise_of_decodePayload_err {i : Instr} {L : Layout} {p : Nat → Byte} {m : Nat} {e : Report}
    (hd : decodes i = true) (h : decodePayload L p m = .err e) : mayRaise i e.kind = true := by
  unfold decodePayload at h
  split at h <;> cases h
  exact hd

theorem mayRaise_of_validateDecode_err {i : Instr} {L : Layout} {rd : Nat → Byte} {n : Nat}
    {expected : Option Byte} {e : Report} (hv : validates i = true) (hd : decodes i = true)
    (hexpected : expectedCommand i = expected) (h : validateDecode L rd n expected = .err e) :
    mayRaise i e.kind = true := by
  unfold validateDecode at h
  split at h
  next hframe =>
    cases h
    exact mayRaise_of_validateFrame_err hv hexpected hframe
  next =>
    split at h
    next hpayload =>
      cases h
      exact mayRaise_of_decodePayload_err hd hpayload
    next => cases h

/-- A `STATUS` code the operation may end with: `OK`, or the code of an error it may raise (R81, R218). -/
def endsWith (i : Instr) (c : BitVec 4) : Prop := c = STATUS_OK ∨ ∃ k, mayRaise i k = true ∧ c = k.code

theorem endsWith_results {i : Instr} {α : Type} {write : α → Results → Results} {r : Res α}
    (hwrite : ∀ v q, (write v q).status = q.status) (h : ∀ e, r = .err e → mayRaise i e.kind = true) :
    endsWith i (r.results write).status := by
  cases r with
  | ok v => exact .inl (hwrite v _)
  | err e => exact .inr ⟨e.kind, h e rfl, rfl⟩

/-- Every operation ends in `OK` or in an error the table gives it. -/
theorem endsWith_operationResults (L : Layout) (rd : Nat → Byte) (n : Nat) (i : Instr) :
    endsWith i (operationResults L rd n i).status := by
  cases i with
  | cksum | build => exact .inl rfl
  | validate | validateC =>
    rw [operationResults]
    exact endsWith_results (fun _ _ => rfl) fun _ => mayRaise_of_validateFrame_err rfl rfl
  | decode =>
    rw [operationResults]
    exact endsWith_results (fun _ _ => rfl) fun _ => mayRaise_of_decodePayload_err rfl
  | vdecode | vdecodeC =>
    rw [operationResults]
    exact endsWith_results (fun _ _ => rfl) fun _ => mayRaise_of_validateDecode_err rfl rfl rfl

/-- Settles O18, by the code the operation ends with: each belongs to one error, whose row of the table names the
operations. -/
theorem errorsAreRaisedByTheirOperations : Obligations.ErrorsAreRaisedByTheirOperations := by
  intro i s
  refine ⟨_, exec_eq i s, ?_⟩
  rw [setRes_res]
  rcases endsWith_operationResults s.params.layout (inByte s) (inputLen s) i with hok | ⟨k, hk, hcode⟩
  · simp [hok, STATUS_OK]
  · rw [hcode]
    cases k with
    | tooShort | badStartMarker | badEndMarker | lengthMismatch | checksumMismatch =>
      have hv : validates i = true := hk
      simp [ErrorKind.code, hv]
    | unexpectedCommand =>
      have hc : checksCommand i = true := hk
      simp [ErrorKind.code, hc, validates_of_checksCommand hc]
    | payloadTooShort =>
      have hd : decodes i = true := hk
      simp [ErrorKind.code, hd]
    | illegalOp => cases hk

end Sys2Proof.Machine

/-! PROOF. The statements about reset (O15, O21, O22). A reset leaves no byte of input, so an operation issued then is
decided by its length check, or has nothing to sum. -/

namespace Sys2Proof.Machine

open Sys2Proof.Claim

/-! ### The reset state (O15) -/

/-- Settles O15: the reference parameters are ones a block can have, and results that are 0 but for None are sound. -/
theorem resetHasTheInvariant : Obligations.ResetHasTheInvariant :=
  { zeroExcept_sound (c := STATUS_NONE) (by decide) with
    params := by decide
    memory := Memory.wf_nil
    indices := fun _ hc => absurd hc List.not_mem_nil
    length := Nat.zero_le _ }

/-! ### `STATUS` after reset (O21) -/

/-- `STATUS` stays None until HOST writes `OPWORD`: another action leaves the results, or is a Reset itself (R241). -/
theorem perform_keeps_status_none {a : HostAction} {s t : State} (hs : s.res.status = STATUS_NONE)
    (ha : ∀ w, a ≠ .issue w) (h : perform a s = .next t) : t.res.status = STATUS_NONE := by
  cases a with
  | writeIN i b => obtain ⟨-, rfl⟩ := perform_writeIN_eq_next_iff.mp h; exact hs
  | writeLEN m => obtain ⟨-, rfl⟩ := perform_writeLEN_eq_next_iff.mp h; exact hs
  | issue w => exact absurd rfl (ha w)
  | read r => obtain ⟨-, rfl⟩ := perform_read_eq_next_iff.mp h; exact hs
  | reset => obtain rfl := perform_reset_eq_next_iff.mp h; rfl
  | writeResult r v => obtain rfl := perform_writeResult_eq_next_iff.mp h; exact hs

/-- The word 0 is none of R71's, so its issue ends in `IllegalOp(0, 0)` in every state (R73, R241). -/
theorem issueResults_zero (s : State) : issueResults 0#32 s = errorResults 0xE#4 0 0 := rfl

/-- An issue has a step, and leaves the results `issueResults` says. -/
theorem exists_issue_next {w : Word} {s : State} {q : Results} (hq : issueResults w s = q) :
    ∃ t, issue w s = .next t ∧ t.res = q := ⟨_, issue_eq w s, hq⟩

/-- Settles O21: after a Reset the input is empty, so two states with it agree on all its bytes (O19). -/
theorem resetGivesTheResetValues : Obligations.ResetGivesTheResetValues := by
  refine ⟨fun s => ⟨resetBlock s, perform_reset s, rfl, rfl, rfl, rfl, rfl, rfl, fun w v hparams hlen => ?_, ?_⟩,
    fun _ _ _ => perform_keeps_status_none⟩
  · exact resultsDependOnTheInputAlone w (resetBlock s) v (congrArg Params.layout hparams.symm) hlen.symm
      fun k hk => absurd hk (Nat.not_lt_zero k)
  · exact exists_issue_next (issueResults_zero (resetBlock s))

/-! ### Operations straight after reset (O22) -/

/-- Issuing an instruction's word leaves what the instruction leaves. -/
theorem issueResults_encode (i : Instr) (s : State) :
    issueResults (encode i) s = operationResults s.params.layout (inByte s) (inputLen s) i := by
  rw [issueResults, decodeOp_encode]

/-- No `LAYOUT` fits an empty payload: every field has a byte (R78, R80). -/
theorem payloadMin_pos (L : Layout) : 0 < L.payloadMin := by
  have hvtotal : L.vtotal + 2 ≤ L.payloadMin := field_end_le_payloadMin (f := (L.vtotal, 2)) List.mem_cons_self
  omega

section
variable (L : Layout) (rd : Nat → Byte)

theorem operationResults_validate_empty : operationResults L rd 0 .validate = errorResults 0x1#4 8 0 := by
  rw [operationResults, validateFrame_of_tooShort (by decide)]
  rfl

theorem operationResults_decode_empty : operationResults L rd 0 .decode = errorResults 0x7#4 L.payloadMin 0 := by
  rw [operationResults, decodePayload, if_pos (payloadMin_pos L)]
  rfl

theorem operationResults_cksum_empty : operationResults L rd 0 .cksum = Results.zeroExcept 0x0#4 := rfl

end

/-- Settles O22: the words are the instructions' own, and Reset leaves an input of length 0 (R243). -/
theorem operationsStraightAfterReset : Obligations.OperationsStraightAfterReset := by
  intro s t h
  obtain rfl := perform_reset_eq_next_iff.mp h
  have hissue (i : Instr) := issueResults_encode i (resetBlock s)
  exact ⟨exists_issue_next ((hissue .validate).trans (operationResults_validate_empty _ _)),
    exists_issue_next ((hissue .decode).trans (operationResults_decode_empty _ _)),
    exists_issue_next ((hissue .cksum).trans (operationResults_cksum_empty _ _))⟩

end Sys2Proof.Machine
